-- ==== Sys2Proof/Word.lean ====
section
/-! DEFINITION. The bit vectors the spec names: bytes, 32-bit register words, and the 16-byte block of the cipher. -/

namespace Sys2Proof

/-- `u8` of rule R9: one byte of a buffer. -/
abbrev Byte := BitVec 8

/-- `u32` of rule R9: the width of every register (rule R6, rule R34). -/
abbrev Word := BitVec 32

/-- A 4-byte word `[w0, w1, w2, w3]`, one column of the AES state, `w0` in row 0 (rule R201). -/
structure Column where
  b0 : Byte
  b1 : Byte
  b2 : Byte
  b3 : Byte
deriving DecidableEq, Repr

/-- A 16-byte block. Byte `k` of the block is row `k mod 4` of column `k div 4` (rules R78 and R201), so the four
columns in order are the sixteen bytes in buffer order. -/
structure Block where
  c0 : Column
  c1 : Column
  c2 : Column
  c3 : Column
deriving DecidableEq, Repr

end Sys2Proof
end

