-- ==== Sys2Proof/Config.lean ====
section
/-! DEFINITION. The parameters of one built block (rule R6) and the free values (rule R12).

Every `opaque` of this file has no body: nothing in Lean can evaluate it, so a theorem about it holds for every value it
could have. -/

namespace Sys2Proof

/-- The implementation parameters of rule R6: `KEY`, `IV`, `IN_CAP`, `OUT_CAP` and the three window bases. The capacities
are 32-bit words because the registers IN_CAP and OUT_CAP show them whole (rule R40). Bus addresses are naturals: rule R71
gives them no width. -/
structure Params where
  key : Block
  iv : Block
  inCap : Word
  outCap : Word
  regBase : Nat
  inBase : Nat
  outBase : Nat
deriving DecidableEq, Repr

/-- The size in bytes of the `REG` space (rule R70). -/
def regSpaceSize : Nat := 32

/-- Two windows `[a, a + n)` and `[b, b + m)` share no bus address. -/
def windowsApart (a n b m : Nat) : Bool := decide (a + n ≤ b) || decide (b + m ≤ a)

/-- "The three windows do not overlap" (rule R71). -/
def Params.placed (p : Params) : Bool :=
  windowsApart p.regBase regSpaceSize p.inBase p.inCap.toNat &&
  windowsApart p.regBase regSpaceSize p.outBase p.outCap.toNat &&
  windowsApart p.inBase p.inCap.toNat p.outBase p.outCap.toNat

/-- "Any value" (rule R12): the byte that draw number `d` gives index `i` of a buffer. DESIGN CHOICE (log entry 1). -/
opaque Config.freeByte : (d i : Nat) → Byte

/-- Byte `i` of the build-time key; the source gives no bytes (rule R6, decision D4). -/
opaque Config.keyByte : Nat → Byte

/-- Byte `i` of the build-time initialization vector (rule R6, decision D4). -/
opaque Config.ivByte : Nat → Byte

/-- Candidate for `IN_CAP` (rule R6, decision D6). -/
opaque Config.someInCap : Word

/-- Candidate for `OUT_CAP` (rule R6, decision D6). -/
opaque Config.someOutCap : Word

/-- Candidate bus base of the `REG` window (rule R71, decision D5). -/
opaque Config.someRegBase : Nat

/-- Candidate bus base of the `IN` window (rule R71, decision D5). -/
opaque Config.someInBase : Nat

/-- Candidate bus base of the `OUT` window (rule R71, decision D5). -/
opaque Config.someOutBase : Nat

/-- The block whose byte `k` is `f k`, in the order of rule R201. -/
def Config.blockOf (f : Nat → Byte) : Block :=
  ⟨⟨f 0, f 1, f 2, f 3⟩, ⟨f 4, f 5, f 6, f 7⟩, ⟨f 8, f 9, f 10, f 11⟩, ⟨f 12, f 13, f 14, f 15⟩⟩

/-- `IN_CAP`: any value with `13 ≤ IN_CAP ≤ 2^32 − 1` (rule R6). DESIGN CHOICE (log entry 3). -/
def Config.inCap : Word := if 13 ≤ Config.someInCap.toNat then Config.someInCap else 13

/-- `OUT_CAP`: any value with `1 ≤ OUT_CAP ≤ 2^32 − 1` (rule R6). DESIGN CHOICE (log entry 3). -/
def Config.outCap : Word := if 1 ≤ Config.someOutCap.toNat then Config.someOutCap else 1

/-- The candidate parameters, whose windows may still overlap. -/
def Config.candidate : Params where
  key := Config.blockOf Config.keyByte
  iv := Config.blockOf Config.ivByte
  inCap := Config.inCap
  outCap := Config.outCap
  regBase := Config.someRegBase
  inBase := Config.someInBase
  outBase := Config.someOutBase

/-- The parameters the block is built with: the candidate where its windows do not overlap, and otherwise the same with the
three windows laid end to end. Every legal choice of rule R6 and rule R71 is a value this may have. DESIGN CHOICE (log entry
3). -/
def Config.params : Params :=
  if Config.candidate.placed then Config.candidate
  else
    { Config.candidate with
      regBase := 0
      inBase := regSpaceSize
      outBase := regSpaceSize + Config.inCap.toNat }

end Sys2Proof
end

