-- ==== Sys2Proof/Syntax.lean ====
section
/-! DEFINITION. The commands (rule R101), the fields of a command word (rule R100), and the accesses by which a host reaches
the block (rules R70 to R75). -/

namespace Sys2Proof

/-- The eight commands, one per row of the opcode table (rule R101). A command has no register field and no immediate: its
operand is `IN[0 .. IN_LEN]` and its result `OUT[0 .. OUT_LEN]` (rule R100). -/
inductive Instr where
  /-- ENV_DECODE, strip the envelope (rule R132). -/
  | envDecode
  /-- ENV_ENCODE, build the envelope (rule R133). -/
  | envEncode
  /-- CBC_DECRYPT, decrypt and remove padding (rule R166). -/
  | cbcDecrypt
  /-- CBC_ENCRYPT, pad and encrypt (rule R167). -/
  | cbcEncrypt
  /-- LEB_DECODE, strip the length prefix (rule R252). -/
  | lebDecode
  /-- LEB_ENCODE, build the length prefix (rule R253). -/
  | lebEncode
  /-- QBL_TO_XML, the three decoders composed (rule R281). -/
  | qblToXml
  /-- XML_TO_QBL, the three encoders composed (rule R282). -/
  | xmlToQbl
deriving DecidableEq, Repr

/-- The fields of a command word in the one format `CMD32` (rule R100): OP is bits 3:0 and RSVD is bits 31:4. -/
structure CommandWord where
  rsvd : BitVec 28
  op : BitVec 4
deriving DecidableEq, Repr

/-- Why a command word is illegal (rule R102). -/
inductive IllegalWord where
  /-- OP is 0x0 or one of 0x9 to 0xF: IllegalCommand detail 1. -/
  | reservedOp
  /-- OP is legal and RSVD is not 0: IllegalCommand detail 2. -/
  | reservedBits
deriving DecidableEq, Repr

/-- Why the decoder of byte lanes refuses its bytes. -/
inductive LaneReject where
  /-- The bytes are not exactly the four lanes of one 32-bit word (rules R79 and R100). -/
  | notOneWord
  /-- The word is illegal (rule R102). -/
  | illegal (r : IllegalWord)
deriving DecidableEq, Repr

/-- The registers of the register map (rule R34). -/
inductive Reg where
  | cmd
  | status
  | inLen
  | outLen
  | errCause
  | inCap
  | outCap
deriving DecidableEq, Repr

/-- The three address spaces (rule R70). -/
inductive Space where
  | reg
  | input
  | output
deriving DecidableEq, Repr

/-- Where a host access is aimed: at an offset of a space (rule R70), or at an address of the host's bus, which reaches a
space through its window (rule R71). -/
inductive Target where
  | cell (space : Space) (offset : Nat)
  | bus (address : Nat)
deriving DecidableEq, Repr

/-- What a host access does, with its width (rules R72, R73 and R75). -/
inductive AccessOp where
  /-- An 8-bit read. -/
  | read8
  /-- An 8-bit write of a byte. -/
  | write8 (b : Byte)
  /-- A 32-bit read. -/
  | read32
  /-- A 32-bit write of a word. -/
  | write32 (v : Word)
  /-- A read or a write of any width other than 8 and 32 bits; the block answers every one alike (rule R75). -/
  | otherWidth
deriving DecidableEq, Repr

/-- One host access (rule R8: the host's steps are its accesses). -/
structure Access where
  target : Target
  op : AccessOp
deriving DecidableEq, Repr

end Sys2Proof
end

