-- ==== Sys2Proof/WellFormed.lean ====
section
/-! DEFINITION. What well-formed terms are: a command word's fields (rules R100 to R102), a command, and the build parameters
(rules R6 and R71). -/

namespace Sys2Proof

/-- OP is one of 0x1 to 0x8 (rule R101). -/
def CommandWord.opLegal (c : CommandWord) : Bool := decide (1 ≤ c.op.toNat) && decide (c.op.toNat ≤ 8)

/-- RSVD is 0 (rule R100). -/
def CommandWord.rsvdZero (c : CommandWord) : Bool := c.rsvd == 0

/-- A command word that selects a command: every other word is illegal (rules R102 and R103). -/
def CommandWord.wf (c : CommandWord) : Bool := c.opLegal && c.rsvdZero

/-- A command carries no operand field (rule R100), so every command is well formed. -/
def Instr.wf : Instr → Bool
  | .envDecode => true
  | .envEncode => true
  | .cbcDecrypt => true
  | .cbcEncrypt => true
  | .lebDecode => true
  | .lebEncode => true
  | .qblToXml => true
  | .xmlToQbl => true

/-- `13 ≤ IN_CAP` (rule R6); the upper bound `2^32 − 1` is the width of the field. -/
def Params.inCapLegal (p : Params) : Bool := decide (13 ≤ p.inCap.toNat)

/-- `1 ≤ OUT_CAP` (rule R6). -/
def Params.outCapLegal (p : Params) : Bool := decide (1 ≤ p.outCap.toNat)

/-- The parameters are ones that rule R6 and rule R71 allow. -/
def Params.wf (p : Params) : Bool := p.inCapLegal && p.outCapLegal && p.placed

end Sys2Proof
end

