-- ==== Sys2Proof/Decode.lean ====
section
/-! DEFINITION. The decoder of command words and their byte lanes, and the encoder (rules R79, R100 to R103; the opcode
table). -/

namespace Sys2Proof

/-- OP is bits 3:0 and RSVD is bits 31:4 (rule R100). -/
def CommandWord.ofWord (w : Word) : CommandWord := { rsvd := w.extractLsb' 4 28, op := w.extractLsb' 0 4 }

/-- The word with these fields (rule R100). -/
def CommandWord.toWord (c : CommandWord) : Word := c.rsvd ++ c.op

/-- The command an OP selects (rule R101); 0x0 and 0x9 to 0xF select none (rule R102). -/
def decodeOp (op : BitVec 4) : Option Instr :=
  match op.toNat with
  | 0x1 => some .envDecode
  | 0x2 => some .envEncode
  | 0x3 => some .cbcDecrypt
  | 0x4 => some .cbcEncrypt
  | 0x5 => some .lebDecode
  | 0x6 => some .lebEncode
  | 0x7 => some .qblToXml
  | 0x8 => some .xmlToQbl
  | _ => none

/-- The command of a 32-bit command word, or why the word is illegal: OP is checked before RSVD (rules R102 and R111). -/
def decode (w : Word) : Except IllegalWord Instr :=
  match decodeOp (CommandWord.ofWord w).op with
  | none => .error .reservedOp
  | some i => if (CommandWord.ofWord w).rsvd = 0 then .ok i else .error .reservedBits

/-- The four byte lanes of a word: lane `k` carries bits `8k+7 : 8k` (rule R79). -/
def lanes (w : Word) : List Byte :=
  [w.extractLsb' 0 8, w.extractLsb' 8 8, w.extractLsb' 16 8, w.extractLsb' 24 8]

/-- The word that four byte lanes carry, lane 0 first (rule R79). -/
def ofLanes (l0 l1 l2 l3 : Byte) : Word := l3 ++ l2 ++ l1 ++ l0

/-- The command that byte lanes carry. Every command word is exactly four lanes (rule R100). -/
def decodeLanes : List Byte → Except LaneReject Instr
  | [l0, l1, l2, l3] =>
    match decode (ofLanes l0 l1 l2 l3) with
    | .ok i => .ok i
    | .error r => .error (.illegal r)
  | _ => .error .notOneWord

/-- The OP of a command (rule R101). -/
def Instr.op : Instr → BitVec 4
  | .envDecode => 0x1
  | .envEncode => 0x2
  | .cbcDecrypt => 0x3
  | .cbcEncrypt => 0x4
  | .lebDecode => 0x5
  | .lebEncode => 0x6
  | .qblToXml => 0x7
  | .xmlToQbl => 0x8

/-- The CMD word of a command: RSVD is 0 (rules R100 and R101). -/
def encode (i : Instr) : Word := CommandWord.toWord { rsvd := 0, op := i.op }

/-- The byte lanes of a command's word (rule R79). -/
def encodeLanes (i : Instr) : List Byte := lanes (encode i)

/-- The command the decoder reads from an instruction whose table bits are `w`: bits above `nbits` are 0, and the 32-bit word
is laid out on its byte lanes. No command is longer than 32 bits (rule R100). -/
def decodeTableWord (nbits w : Nat) : Option Instr :=
  if w % 2 ^ nbits < 2 ^ 32 then (decodeLanes (lanes (BitVec.ofNat 32 (w % 2 ^ nbits)))).toOption else none

end Sys2Proof
end

