-- ==== Sys2Proof/Machine/State.lean ====
section
/-! DEFINITION. The state of one block (rule R30), the outcomes of a command (rules R11 and R300), and the state right after
reset (rule R340). Types only: every operation on them stands in the other files of this folder. -/

namespace Sys2Proof.Machine

/-- The failed checks of rule R300, one constructor for each row of its table. A failed command is no fault of the machine:
it is an outcome that STATUS and ERR_CAUSE report (rule R304). -/
inductive CommandError where
  /-- FormatError 1: the input is shorter than 13 bytes. -/
  | tooShort
  /-- FormatError 2: byte 0 is not 0x7E. -/
  | badMagic0
  /-- FormatError 3: byte 1 is not 0x00. -/
  | badMagic1
  /-- FormatError 4: byte 6 is not 0x7F. -/
  | badMagic6
  /-- FormatError 5: byte 7 is not 0x01. -/
  | badMagic7
  /-- FormatError 6: the last byte is not 0x7B. -/
  | badTrailer
  /-- FormatError 7: outerLen is not the input length less 6. -/
  | badOuterLen
  /-- FormatError 8: innerLen is not the input length less 13. -/
  | badInnerLen
  /-- FormatError 9: the payload length plus 7 does not fit in 32 bits. -/
  | lengthOverflow
  /-- FormatError 10: the input holds no prefix terminator. -/
  | noTerminator
  /-- CryptoError 1: the ciphertext length is 0 or not a multiple of 16. -/
  | badCipherLength
  /-- CryptoError 2: the last plaintext byte N is 0 or greater than 16. -/
  | badPadLength
  /-- CryptoError 3: one of the last N plaintext bytes is not N. -/
  | badPadBytes
  /-- IllegalCommand 1: OP is 0x0 or 0x9 to 0xF. -/
  | illegalOp
  /-- IllegalCommand 2: OP is legal and RSVD is not 0. -/
  | illegalBits
  /-- CapacityError 1: IN_LEN is greater than IN_CAP. -/
  | inputOverCap
  /-- CapacityError 2: the result is longer than OUT_CAP. -/
  | resultOverCap
deriving DecidableEq, Repr

/-- What a command function returns (rule R11): `Ok(bytes)` or `Err(cause, detail)`. -/
inductive Result where
  | ok (y : List Byte)
  | err (e : CommandError)
deriving DecidableEq, Repr

/-- One buffer, IN or OUT (rules R43 and R44), as a list of (index, byte) pairs. An unlisted index has had no byte stored in it
since the buffer was last drawn: it holds the byte of draw number `draw` (rules R112 and R341; log entry 2). -/
structure Memory where
  cells : List Host.Cell
  draw : Nat
deriving DecidableEq, Repr

/-- What the block answers to an accepted host access (rules R72 and R73). A refused access is no reply: it is the fault
`Fault.busError`. -/
inductive Reply where
  /-- The byte an 8-bit read returns. -/
  | byte (b : Byte)
  /-- The word a 32-bit read returns. -/
  | word (w : Word)
  /-- The write completed on the bus, whether or not it had an effect (rules R74 and R350). -/
  | written
deriving DecidableEq, Repr

/-- Whose step comes next (rule R8; log entry 4): an access of the host, the engine, or the reset line. -/
inductive Turn where
  | host (a : Access)
  | engine
  | reset
deriving DecidableEq, Repr

/-- The whole state of one block: the tuple of rule R30 with its constants, and the model's own three fields, which say what
comes from outside (`turns`), what went out (`replies`), and which draw is the next (`draws`). -/
structure State where
  /-- CMD, offset 0x00 (rule R35). -/
  cmd : Word
  /-- STATUS, offset 0x04: BUSY is bit 0, DONE bit 1, ERR bit 2 (rule R36). -/
  status : Word
  /-- IN_LEN, offset 0x08 (rule R37). -/
  inLen : Word
  /-- OUT_LEN, offset 0x0C (rule R38). -/
  outLen : Word
  /-- ERR_CAUSE, offset 0x10: CAUSE is bits 7:0, DETAIL bits 15:8 (rule R39). -/
  errCause : Word
  /-- IN, the input buffer (rule R43). -/
  inBuf : Memory
  /-- OUT, the output buffer (rule R44). -/
  outBuf : Memory
  /-- KEY, IV, the hardwired IN_CAP and OUT_CAP, and the bus placement (rules R6, R40, R42 and R71). No step changes it. -/
  params : Params
  /-- The model's own: the number of the next draw of "any value" (rule R12; log entry 1). -/
  draws : Nat
  /-- The model's own: the turns still to come, the next one first (rules R8 and R84; log entry 4). -/
  turns : List Turn
  /-- The model's own: the replies given to the host, the latest first (rule R84; log entry 6). -/
  replies : List Reply
deriving DecidableEq, Repr

/-- The ways a step stops. -/
inductive Fault where
  /-- A host access was refused with a BusError response (rule R75). Raised by a host turn whose access falls outside every
  space, at REG offset 0x1C, at a misaligned REG offset, or has a width its space does not take. The spec says that "a model
  treats a BusError as a fault of the host's step" and that it changes no state of the block. Safe: the machine stops where
  the block would go on unchanged. -/
  | busError
deriving DecidableEq, Repr

/-- The instructions that have no meaning. -/
inductive Refusal where
  /-- Raised by an arm of `exec` whose instruction has no meaning yet; no arm is one. Safe: the machine stops. -/
  | notModelled (mnemonic : String)
deriving DecidableEq, Repr

/-- The machine right after reset: the values of rule R340. Both buffers hold drawn bytes (rule R341), each from a draw of its
own; KEY, IV and the capacities are the build's (rule R342); nothing has come from outside yet. -/
def State.reset : State where
  cmd := 0x00000000
  status := 0x00000000
  inLen := 0x00000000
  outLen := 0x00000000
  errCause := 0x00000000
  inBuf := { cells := [], draw := 0 }
  outBuf := { cells := [], draw := 1 }
  params := Config.params
  draws := 2
  turns := []
  replies := []

end Sys2Proof.Machine
end

