-- ==== Sys2Proof/Machine/Flags.lean ====
section
/-! DEFINITION. STATUS, the block's only flags (rule R36), and the codes of ERR_CAUSE (rules R39 and R300). -/

namespace Sys2Proof.Machine

/-- STATUS with BUSY set and nothing else (rule R110). -/
def statusBusy : Word := 0x00000001

/-- STATUS after a command that succeeded: DONE (rule R112). -/
def statusDone : Word := 0x00000002

/-- STATUS after a command that failed: DONE and ERR (rule R112). -/
def statusFailed : Word := 0x00000006

/-- STATUS.BUSY, bit 0. -/
def State.busy (s : State) : Bool := s.status.getLsbD 0

/-- STATUS.DONE, bit 1. -/
def State.done (s : State) : Bool := s.status.getLsbD 1

/-- STATUS.ERR, bit 2. -/
def State.failed (s : State) : Bool := s.status.getLsbD 2

/-- STATUS bits 31:3 always read 0 (rule R36). -/
def statusMask : Word := 0x00000007

/-- ERR_CAUSE bits 31:16 always read 0 (rule R39). -/
def errCauseMask : Word := 0x0000FFFF

/-- The CAUSE of a failed check: FormatError 1, CryptoError 2, IllegalCommand 3, CapacityError 4 (rule R300). -/
def CommandError.cause : CommandError → Byte
  | .tooShort => 1
  | .badMagic0 => 1
  | .badMagic1 => 1
  | .badMagic6 => 1
  | .badMagic7 => 1
  | .badTrailer => 1
  | .badOuterLen => 1
  | .badInnerLen => 1
  | .lengthOverflow => 1
  | .noTerminator => 1
  | .badCipherLength => 2
  | .badPadLength => 2
  | .badPadBytes => 2
  | .illegalOp => 3
  | .illegalBits => 3
  | .inputOverCap => 4
  | .resultOverCap => 4

/-- The DETAIL of a failed check (rule R300). -/
def CommandError.detail : CommandError → Byte
  | .tooShort => 1
  | .badMagic0 => 2
  | .badMagic1 => 3
  | .badMagic6 => 4
  | .badMagic7 => 5
  | .badTrailer => 6
  | .badOuterLen => 7
  | .badInnerLen => 8
  | .lengthOverflow => 9
  | .noTerminator => 10
  | .badCipherLength => 1
  | .badPadLength => 2
  | .badPadBytes => 3
  | .illegalOp => 1
  | .illegalBits => 2
  | .inputOverCap => 1
  | .resultOverCap => 2

/-- The value of ERR_CAUSE after the check failed: `(DETAIL << 8) | CAUSE` (rules R112 and R300). -/
def CommandError.code (e : CommandError) : Word := (e.detail.setWidth 32 <<< 8) ||| e.cause.setWidth 32

/-- The failed check of an illegal command word (rule R102). -/
def illegalError : IllegalWord → CommandError
  | .reservedOp => .illegalOp
  | .reservedBits => .illegalBits

end Sys2Proof.Machine
end

