-- ==== Sys2Proof/Machine/Operands.lean ====
section
/-! DEFINITION. Operands: byte sequences and their helpers (rules R9 and R10), the buffers as indexed bytes (rules R43 and R44),
the input and the result of a command (rule R100), the register map (rule R34) and where a host access is aimed (rules R70 and
R71). -/

namespace Sys2Proof.Machine

/-- `b[i]`. The callers check `i < len(b)` first, so the default is never read (log entry 9). -/
def byteAt (b : List Byte) (i : Nat) : Byte := b.getD i 0

/-- `b[i .. j]`: the start is included and the end is excluded (rule R10, conflict C2). -/
def slice (b : List Byte) (i j : Nat) : List Byte := (b.take j).drop i

/-- `le32(v)`: the four bytes of `v[31:0]`, least significant byte first (rules R10 and R76). -/
def le32 (v : Nat) : List Byte := lanes (BitVec.ofNat 32 v)

/-- `rd_le32(b, i)` (rules R10 and R76). -/
def rdLe32 (b : List Byte) (i : Nat) : Word :=
  ofLanes (byteAt b i) (byteAt b (i + 1)) (byteAt b (i + 2)) (byteAt b (i + 3))

/-- The byte stored at an index since the buffer was last drawn, if any. -/
def cellsLookup (i : Nat) : List Host.Cell → Option Byte
  | [] => none
  | c :: cs => if c.1 = i then some c.2 else cellsLookup i cs

/-- The cells with byte `b` stored at index `i`, kept in rising order of index. -/
def cellsInsert (i : Nat) (b : Byte) : List Host.Cell → List Host.Cell
  | [] => [(i, b)]
  | c :: cs =>
    if i < c.1 then (i, b) :: c :: cs
    else if i = c.1 then (i, b) :: cs
    else c :: cellsInsert i b cs

/-- The cells that hold the bytes `y` from index `i` on. -/
def cellsFrom (i : Nat) : List Byte → List Host.Cell
  | [] => []
  | b :: bs => (i, b) :: cellsFrom (i + 1) bs

/-- The indexes of the cells strictly rise. -/
def cellsRising : List Host.Cell → Bool
  | [] => true
  | [_] => true
  | c :: d :: cs => decide (c.1 < d.1) && cellsRising (d :: cs)

/-- The canonical form of a buffer: indexes strictly rising. An unlisted index has no stored byte, so no entry can equal what
an unlisted index holds, and buffers of one draw with equal stored bytes are equal data (log entry 2). -/
def Memory.wf (m : Memory) : Bool := cellsRising m.cells

/-- The byte stored at index `i`, if one was stored since the last draw. -/
def Memory.stored (m : Memory) (i : Nat) : Option Byte := cellsLookup i m.cells

/-- The byte the buffer holds at index `i`: the stored one, and otherwise the drawn one, any value (rules R12 and R341). -/
def Memory.read (m : Memory) (i : Nat) : Byte :=
  match m.stored i with
  | some b => b
  | none => Config.freeByte m.draw i

/-- `MemWrite` of one byte (rule R11). -/
def Memory.write (m : Memory) (i : Nat) (b : Byte) : Memory := { m with cells := cellsInsert i b m.cells }

/-- A buffer every byte of which is any value, from draw number `d` (rules R112 and R341). -/
def Memory.drawn (d : Nat) : Memory := { cells := [], draw := d }

/-- A buffer that holds `y` from index 0 on and any value above it (rule R112). -/
def Memory.holding (d : Nat) (y : List Byte) : Memory := { cells := cellsFrom 0 y, draw := d }

/-- `MemRead` of the `n` bytes from index `i` (rule R11). -/
def Memory.bytes (m : Memory) (i n : Nat) : List Byte := (List.range n).map fun k => m.read (i + k)

/-- The input operand of a command: `IN[0 .. IN_LEN]` (rules R11 and R100). -/
def State.input (s : State) : List Byte := s.inBuf.bytes 0 s.inLen.toNat

/-- The result of the last command: `OUT[0 .. OUT_LEN]` (rules R44 and R100). -/
def State.result (s : State) : List Byte := s.outBuf.bytes 0 s.outLen.toNat

/-- The byte offset of a register in the space `REG` (rule R34). -/
def Reg.offset : Reg → Nat
  | .cmd => 0x00
  | .status => 0x04
  | .inLen => 0x08
  | .outLen => 0x0C
  | .errCause => 0x10
  | .inCap => 0x14
  | .outCap => 0x18

/-- The register at a byte offset (rules R34 and R73): none at a misaligned offset, at 0x1C or beyond. -/
def regAt : Nat → Option Reg
  | 0x00 => some .cmd
  | 0x04 => some .status
  | 0x08 => some .inLen
  | 0x0C => some .outLen
  | 0x10 => some .errCause
  | 0x14 => some .inCap
  | 0x18 => some .outCap
  | _ => none

/-- The size in bytes of a space (rule R70). -/
def spaceSize (p : Params) : Space → Nat
  | .reg => regSpaceSize
  | .input => p.inCap.toNat
  | .output => p.outCap.toNat

/-- The bus address at which the window of a space begins (rule R71). -/
def spaceBase (p : Params) : Space → Nat
  | .reg => p.regBase
  | .input => p.inBase
  | .output => p.outBase

/-- "A bus address `a` reaches space `S` at offset `a − S_BASE` when `S_BASE ≤ a < S_BASE + size(S)`" (rule R71). -/
def windowHit (p : Params) (a : Nat) (sp : Space) : Bool :=
  decide (spaceBase p sp ≤ a) && decide (a < spaceBase p sp + spaceSize p sp)

/-- The space and offset an access reaches (rules R70 and R71): none for a bus address outside every window. -/
def locate (p : Params) : Target → Option (Space × Nat)
  | .cell sp o => some (sp, o)
  | .bus a =>
    if windowHit p a .reg then some (.reg, a - p.regBase)
    else if windowHit p a .input then some (.input, a - p.inBase)
    else if windowHit p a .output then some (.output, a - p.outBase)
    else none

end Sys2Proof.Machine
end

