-- ==== Sys2Proof/Machine/Aes.lean ====
section
/-! DEFINITION. The AES-128 block cipher (rules R200 to R213). -/

namespace Sys2Proof.Machine

/-! ## Columns and blocks -/

/-- Bytewise `⊕` of two columns. -/
def Column.xor (a b : Column) : Column := ⟨a.b0 ^^^ b.b0, a.b1 ^^^ b.b1, a.b2 ^^^ b.b2, a.b3 ^^^ b.b3⟩

/-- A function of bytes on every byte of a column. -/
def Column.map (f : Byte → Byte) (a : Column) : Column := ⟨f a.b0, f a.b1, f a.b2, f a.b3⟩

/-- "A block is combined with another by bytewise `⊕`" (rule R160). -/
def Block.xor (a b : Block) : Block :=
  ⟨Column.xor a.c0 b.c0, Column.xor a.c1 b.c1, Column.xor a.c2 b.c2, Column.xor a.c3 b.c3⟩

/-- A function of columns on every column of a block. -/
def Block.map (f : Column → Column) (a : Block) : Block := ⟨f a.c0, f a.c1, f a.c2, f a.c3⟩

/-- The four bytes of a column, row 0 first. -/
def Column.bytes (a : Column) : List Byte := [a.b0, a.b1, a.b2, a.b3]

/-- Store a block as its sixteen bytes: byte `r + 4c` is row `r`, column `c` (rules R78 and R201). -/
def Block.bytes (a : Block) : List Byte :=
  Column.bytes a.c0 ++ Column.bytes a.c1 ++ Column.bytes a.c2 ++ Column.bytes a.c3

/-! ## Field arithmetic (rule R202) -/

/-- Multiplication by `x` modulo `x^8 + x^4 + x^3 + x + 1` (rule R202). -/
def xtime (a : Byte) : Byte := (a <<< 1) ^^^ (if a.getLsbD 7 then 0x1B else 0x00)

/-- `xtime^i(a)` (rule R202). -/
def xtimes : Nat → Byte → Byte
  | 0, a => a
  | i + 1, a => xtime (xtimes i a)

/-- `a • b`: the `⊕` of `xtime^i(a)` over the set bits `i` of `b` (rule R202). -/
def gmul (a b : Byte) : Byte :=
  (List.range 8).foldl (fun acc i => if b.getLsbD i then acc ^^^ xtimes i a else acc) 0

/-! ## Tables (rules R203 to R205) -/

/-- Entry `a` of a table given by rows: row the high hex digit of `a`, column its low hex digit, the leftmost byte of a row
column 0 (rule R203). -/
def tableEntry (rows : List (BitVec 128)) (a : Byte) : Byte :=
  ((rows.getD (a.toNat / 16) 0) >>> (8 * (15 - a.toNat % 16))).setWidth 8

/-- The rows of the S-box (rule R203). -/
def sboxRows : List (BitVec 128) :=
  [0x637c777bf26b6fc53001672bfed7ab76, 0xca82c97dfa5947f0add4a2af9ca472c0,
   0xb7fd9326363ff7cc34a5e5f171d83115, 0x04c723c31896059a071280e2eb27b275,
   0x09832c1a1b6e5aa0523bd6b329e32f84, 0x53d100ed20fcb15b6acbbe394a4c58cf,
   0xd0efaafb434d338545f9027f503c9fa8, 0x51a3408f929d38f5bcb6da2110fff3d2,
   0xcd0c13ec5f974417c4a77e3d645d1973, 0x60814fdc222a908846eeb814de5e0bdb,
   0xe0323a0a4906245cc2d3ac629195e479, 0xe7c8376d8dd54ea96c56f4ea657aae08,
   0xba78252e1ca6b4c6e8dd741f4bbd8b8a, 0x703eb5664803f60e613557b986c11d9e,
   0xe1f8981169d98e949b1e87e9ce5528df, 0x8ca1890dbfe6426841992d0fb054bb16]

/-- The rows of the inverse S-box (rule R204). -/
def invSboxRows : List (BitVec 128) :=
  [0x52096ad53036a538bf40a39e81f3d7fb, 0x7ce339829b2fff87348e4344c4dee9cb,
   0x547b9432a6c2233dee4c950b42fac34e, 0x082ea16628d924b2765ba2496d8bd125,
   0x72f8f66486689816d4a45ccc5d65b692, 0x6c704850fdedb9da5e154657a78d9d84,
   0x90d8ab008cbcd30af7e45805b8b34506, 0xd02c1e8fca3f0f02c1afbd0301138a6b,
   0x3a9111414f67dcea97f2cfcef0b4e673, 0x96ac7422e7ad3585e2f937e81c75df6e,
   0x47f11a711d29c5896fb7620eaa18be1b, 0xfc563e4bc6d279209adbc0fe78cd5af4,
   0x1fdda8338807c731b11210592780ec5f, 0x60517fa919b54a0d2de57a9f93c99cef,
   0xa0e03b4dae2af5b0c8ebbb3c83539961, 0x172b047eba77d626e169146355210c7d]

/-- `Sbox` (rule R203). -/
def sbox (a : Byte) : Byte := tableEntry sboxRows a

/-- `InvSbox` (rule R204). -/
def invSbox (a : Byte) : Byte := tableEntry invSboxRows a

/-- The round constant `rc_(i+1)`: `rc_1 = 0x01` and each next one is `xtime` of the last (rule R205). -/
def roundConst : Nat → Byte
  | 0 => 0x01
  | i + 1 => xtime (roundConst i)

/-- `Rcon(i + 1)` (rule R205). -/
def rcon (i : Nat) : Column := ⟨roundConst i, 0x00, 0x00, 0x00⟩

/-! ## Round transformations (rules R206 to R209) -/

/-- SubBytes (rule R206). -/
def subBytes (s : Block) : Block := Block.map (Column.map sbox) s

/-- InvSubBytes (rule R206). -/
def invSubBytes (s : Block) : Block := Block.map (Column.map invSbox) s

/-- ShiftRows: `s'[r][c] = s[r][(c + r) mod 4]` (rule R207). -/
def shiftRows (s : Block) : Block :=
  ⟨⟨s.c0.b0, s.c1.b1, s.c2.b2, s.c3.b3⟩, ⟨s.c1.b0, s.c2.b1, s.c3.b2, s.c0.b3⟩,
   ⟨s.c2.b0, s.c3.b1, s.c0.b2, s.c1.b3⟩, ⟨s.c3.b0, s.c0.b1, s.c1.b2, s.c2.b3⟩⟩

/-- InvShiftRows: `s'[r][c] = s[r][(c − r) mod 4]` (rule R207). -/
def invShiftRows (s : Block) : Block :=
  ⟨⟨s.c0.b0, s.c3.b1, s.c2.b2, s.c1.b3⟩, ⟨s.c1.b0, s.c0.b1, s.c3.b2, s.c2.b3⟩,
   ⟨s.c2.b0, s.c1.b1, s.c0.b2, s.c3.b3⟩, ⟨s.c3.b0, s.c2.b1, s.c1.b2, s.c0.b3⟩⟩

/-- MixColumns of one column (rule R208). -/
def mixColumn (s : Column) : Column :=
  ⟨gmul 0x02 s.b0 ^^^ gmul 0x03 s.b1 ^^^ gmul 0x01 s.b2 ^^^ gmul 0x01 s.b3,
   gmul 0x01 s.b0 ^^^ gmul 0x02 s.b1 ^^^ gmul 0x03 s.b2 ^^^ gmul 0x01 s.b3,
   gmul 0x01 s.b0 ^^^ gmul 0x01 s.b1 ^^^ gmul 0x02 s.b2 ^^^ gmul 0x03 s.b3,
   gmul 0x03 s.b0 ^^^ gmul 0x01 s.b1 ^^^ gmul 0x01 s.b2 ^^^ gmul 0x02 s.b3⟩

/-- InvMixColumns of one column (rule R208). -/
def invMixColumn (s : Column) : Column :=
  ⟨gmul 0x0e s.b0 ^^^ gmul 0x0b s.b1 ^^^ gmul 0x0d s.b2 ^^^ gmul 0x09 s.b3,
   gmul 0x09 s.b0 ^^^ gmul 0x0e s.b1 ^^^ gmul 0x0b s.b2 ^^^ gmul 0x0d s.b3,
   gmul 0x0d s.b0 ^^^ gmul 0x09 s.b1 ^^^ gmul 0x0e s.b2 ^^^ gmul 0x0b s.b3,
   gmul 0x0b s.b0 ^^^ gmul 0x0d s.b1 ^^^ gmul 0x09 s.b2 ^^^ gmul 0x0e s.b3⟩

/-- MixColumns (rule R208). -/
def mixColumns (s : Block) : Block := Block.map mixColumn s

/-- InvMixColumns (rule R208). -/
def invMixColumns (s : Block) : Block := Block.map invMixColumn s

/-- AddRoundKey: word `w[4i + c]` of the key schedule into column `c` (rule R209). -/
def addRoundKey (k s : Block) : Block := Block.xor s k

/-! ## Key schedule (rule R210) -/

/-- `RotWord` (rule R210). -/
def rotWord (w : Column) : Column := ⟨w.b1, w.b2, w.b3, w.b0⟩

/-- `SubWord` (rule R210). -/
def subWord (w : Column) : Column := Column.map sbox w

/-- The words `w[4(i+1)] … w[4(i+1) + 3]` of the schedule from the four before them (rule R210). DEDUCED (log entry 10). -/
def nextRoundKey (i : Nat) (k : Block) : Block :=
  let w0 := Column.xor k.c0 (Column.xor (subWord (rotWord k.c3)) (rcon i))
  let w1 := Column.xor k.c1 w0
  let w2 := Column.xor k.c2 w1
  let w3 := Column.xor k.c3 w2
  ⟨w0, w1, w2, w3⟩

/-- Round key `i`: `w[4i] ++ w[4i+1] ++ w[4i+2] ++ w[4i+3]` (rule R210). Round key 0 is the key. -/
def roundKey (k : Block) : Nat → Block
  | 0 => k
  | i + 1 => nextRoundKey i (roundKey k i)

/-- Column `c` of a block (rule R201); `c` is 0 to 3. -/
def blockColumn (s : Block) (c : Nat) : Column :=
  match c with
  | 0 => s.c0
  | 1 => s.c1
  | 2 => s.c2
  | _ => s.c3

/-- Row `r` of a column (rule R201); `r` is 0 to 3. -/
def columnByte (w : Column) (r : Nat) : Byte :=
  match r with
  | 0 => w.b0
  | 1 => w.b1
  | 2 => w.b2
  | _ => w.b3

/-- `s[r][c]` (rule R201). -/
def stateByte (s : Block) (r c : Nat) : Byte := columnByte (blockColumn s c) r

/-- The word `w[i]` of the key schedule (rule R210). -/
def scheduleWord (k : Block) (i : Nat) : Column := blockColumn (roundKey k (i / 4)) (i % 4)

/-! ## Cipher and inverse cipher (rules R211 and R212) -/

/-- One of the rounds 1 to 9 of the cipher (rule R211). -/
def encRound (k : Block) (s : Block) (i : Nat) : Block :=
  addRoundKey (roundKey k i) (mixColumns (shiftRows (subBytes s)))

/-- One of the rounds 9 to 1 of the inverse cipher (rule R212). -/
def decRound (k : Block) (s : Block) (i : Nat) : Block :=
  invMixColumns (addRoundKey (roundKey k i) (invSubBytes (invShiftRows s)))

/-- `AesEnc(k, x)` (rule R211). -/
def aesEnc (k x : Block) : Block :=
  addRoundKey (roundKey k 10)
    (shiftRows (subBytes ([1, 2, 3, 4, 5, 6, 7, 8, 9].foldl (encRound k) (addRoundKey (roundKey k 0) x))))

/-- `AesDec(k, y)` (rule R212). -/
def aesDec (k y : Block) : Block :=
  addRoundKey (roundKey k 0)
    (invSubBytes (invShiftRows
      ([9, 8, 7, 6, 5, 4, 3, 2, 1].foldl (decRound k) (addRoundKey (roundKey k 10) y))))

end Sys2Proof.Machine
end

