-- ==== Sys2Proof/Machine/Ops.lean ====
section
/-! DEFINITION. The operations every command and every host access shares: starting a command (rule R110), its outcome (rule
R111), its completion with a result or with an error (rules R112 and R304), the register and buffer accesses of the host
(rules R72 to R75), and reset (rules R340 to R343). -/

namespace Sys2Proof.Machine

/-- "?" of rule R281: a stage runs on the whole result of the stage before, and the first `Err` ends the command (rule R280). -/
def Result.thenRun (r : Result) (f : List Byte → Result) : Result :=
  match r with
  | .ok y => f y
  | .err e => .err e

/-! ## A command -/

/-- A host write of `v` to CMD (rule R110): in phase BUSY it is dropped; in phase IDLE it starts a command, whatever `v` is. -/
def State.startCommand (s : State) (v : Word) : State :=
  if s.busy then s
  else { s with cmd := v, outLen := 0, errCause := 0, status := statusBusy }

/-- The outcome of a legal command whose function is `f` (rule R111): CapacityError 1 before any input byte is read, then `f`
on the input, then CapacityError 2 on a result that OUT cannot hold. -/
def State.outcome (s : State) (f : List Byte → Result) : Result :=
  if s.inLen.toNat > s.params.inCap.toNat then .err .inputOverCap
  else
    match f s.input with
    | .ok y => if y.length > s.params.outCap.toNat then .err .resultOverCap else .ok y
    | .err e => .err e

/-- Completion with the result `y` (rule R112, `Ok`): OUT holds `y` and any value above it, STATUS is DONE. -/
def State.deliver (s : State) (y : List Byte) : State :=
  { s with
    outBuf := Memory.holding s.draws y
    draws := s.draws + 1
    outLen := BitVec.ofNat 32 y.length
    errCause := 0
    status := statusDone }

/-- Completion with an error, the block's only exception report (rule R112, `Err`; rule R304): every byte of OUT is any value,
OUT_LEN is 0, ERR_CAUSE holds the code, STATUS is DONE and ERR. There is no vector, no saved register and no mode, and no
return from it: the next accepted CMD write (`State.startCommand`) clears the report (rule R305). -/
def State.reportError (s : State) (e : CommandError) : State :=
  { s with
    outBuf := Memory.drawn s.draws
    draws := s.draws + 1
    outLen := 0
    errCause := e.code
    status := statusFailed }

/-- The completion of a command with an outcome (rule R112). -/
def State.complete (s : State) (r : Result) : State :=
  match r with
  | .ok y => s.deliver y
  | .err e => s.reportError e

/-- The command step of a legal command whose function is `f` (rules R111 and R112). -/
def runCommand (f : List Byte → Result) (s : State) : Host.Outcome State Fault Refusal :=
  .next (s.complete (s.outcome f))

/-! ## Host accesses -/

/-- The value a register reads as (rules R35 to R40). A read has no side effect (rule R73); the bits that always read 0 are
cleared here. -/
def State.readReg (s : State) : Reg → Word
  | .cmd => s.cmd
  | .status => s.status &&& statusMask
  | .inLen => s.inLen
  | .outLen => s.outLen
  | .errCause => s.errCause &&& errCauseMask
  | .inCap => s.params.inCap
  | .outCap => s.params.outCap

/-- A write of `v` to IN_LEN (rules R37 and R73): dropped in phase BUSY (rule R350). -/
def State.writeInLen (s : State) (v : Word) : State := if s.busy then s else { s with inLen := v }

/-- A host write of a register (rule R73): CMD starts a command, IN_LEN takes the value, and the read-only registers discard
it (rule R74). -/
def State.writeReg (s : State) (r : Reg) (v : Word) : State :=
  match r with
  | .cmd => s.startCommand v
  | .status => s
  | .inLen => s.writeInLen v
  | .outLen => s
  | .errCause => s
  | .inCap => s
  | .outCap => s

/-- `RegRead(o)` (rule R73); `none` is the BusError of a misaligned or reserved offset. -/
def regRead (o : Nat) (s : State) : Option Word := (regAt o).map s.readReg

/-- `RegWrite(o, v)` (rule R73). -/
def regWrite (o : Nat) (v : Word) (s : State) : Option State := (regAt o).map fun r => s.writeReg r v

/-- `InRead(i)` (rule R72). -/
def inRead (i : Nat) (s : State) : Option Byte := if i < s.params.inCap.toNat then some (s.inBuf.read i) else none

/-- `InWrite(i, b)` (rule R72): dropped in phase BUSY (rule R350). -/
def inWrite (i : Nat) (b : Byte) (s : State) : Option State :=
  if i < s.params.inCap.toNat then some (if s.busy then s else { s with inBuf := s.inBuf.write i b }) else none

/-- `OutRead(i)` (rule R72): in phase BUSY it returns any value, drawn anew at each read (rule R351). -/
def outRead (i : Nat) (s : State) : Option (Byte × State) :=
  if i < s.params.outCap.toNat then
    if s.busy then some (Config.freeByte s.draws i, { s with draws := s.draws + 1 })
    else some (s.outBuf.read i, s)
  else none

/-- `OutWrite(i, b)` (rules R72 and R74): no effect. -/
def outWrite (i : Nat) (_b : Byte) (s : State) : Option State := if i < s.params.outCap.toNat then some s else none

/-- One host access at an offset of a space: the reply and the state after it, or `none` for a BusError (rules R72 to R75).
`REG` takes 32-bit accesses only, `IN` and `OUT` 8-bit accesses only. -/
def accessAt (sp : Space) (o : Nat) (op : AccessOp) (s : State) : Option (Reply × State) :=
  match sp, op with
  | .reg, .read32 => (regRead o s).map fun w => (.word w, s)
  | .reg, .write32 v => (regWrite o v s).map fun t => (.written, t)
  | .reg, .read8 => none
  | .reg, .write8 _ => none
  | .reg, .otherWidth => none
  | .input, .read8 => (inRead o s).map fun b => (.byte b, s)
  | .input, .write8 b => (inWrite o b s).map fun t => (.written, t)
  | .input, .read32 => none
  | .input, .write32 _ => none
  | .input, .otherWidth => none
  | .output, .read8 => (outRead o s).map fun r => (.byte r.1, r.2)
  | .output, .write8 b => (outWrite o b s).map fun t => (.written, t)
  | .output, .read32 => none
  | .output, .write32 _ => none
  | .output, .otherWidth => none

/-- One host access (rules R71 to R75); `none` is the BusError. -/
def hostAccess (a : Access) (s : State) : Option (Reply × State) :=
  match locate s.params a.target with
  | some (sp, o) => accessAt sp o a.op s
  | none => none

/-- The reply joins the replies the host has had. -/
def State.record (s : State) (r : Reply) : State := { s with replies := r :: s.replies }

/-- The state with other turns to come. -/
def State.withTurns (s : State) (ts : List Turn) : State := { s with turns := ts }

/-! ## Reset -/

/-- The reset line (rules R340 to R343): the registers take their reset values, a command in phase BUSY is abandoned, every
byte of IN and OUT is drawn anew, and KEY, IV, the capacities and the placement keep their build-time values. -/
def State.resetBlock (s : State) : State :=
  { s with
    cmd := 0
    status := 0
    inLen := 0
    outLen := 0
    errCause := 0
    inBuf := Memory.drawn s.draws
    outBuf := Memory.drawn (s.draws + 1)
    draws := s.draws + 2 }

end Sys2Proof.Machine
end

