-- ==== Sys2Proof/Machine/Cipher.lean ====
section
/-! DEFINITION. The cipher codec: CBC chaining, PKCS7 padding, CBC_DECRYPT and CBC_ENCRYPT (rules R160 to R167). -/

namespace Sys2Proof.Machine

/-- The blocks `B_0 … B_(m−1)` of a byte sequence of `16m` bytes (rule R160). Bytes after the last whole block are no block;
the callers give a multiple of 16 (log entry 9). -/
def splitBlocks : List Byte → List Block
  | b0 :: b1 :: b2 :: b3 :: b4 :: b5 :: b6 :: b7 :: b8 :: b9 :: b10 :: b11 :: b12 :: b13 :: b14 :: b15 :: rest =>
    ⟨⟨b0, b1, b2, b3⟩, ⟨b4, b5, b6, b7⟩, ⟨b8, b9, b10, b11⟩, ⟨b12, b13, b14, b15⟩⟩ :: splitBlocks rest
  | _ => []

/-- `B_0 ++ B_1 ++ … ++ B_(m−1)` (rule R160). -/
def joinBlocks (bs : List Block) : List Byte := bs.flatMap Block.bytes

/-- CBC encryption of blocks after the chaining value `prev` (rule R161). -/
def cbcEncBlocks (key : Block) : Block → List Block → List Block
  | _, [] => []
  | prev, p :: ps => aesEnc key (Block.xor p prev) :: cbcEncBlocks key (aesEnc key (Block.xor p prev)) ps

/-- CBC decryption of blocks after the chaining value `prev` (rule R163). -/
def cbcDecBlocks (key : Block) : Block → List Block → List Block
  | _, [] => []
  | prev, c :: cs => Block.xor (aesDec key c) prev :: cbcDecBlocks key c cs

/-- `CbcEnc` (rule R161): every call starts from `IV` (rule R162). -/
def cbcEnc (key iv : Block) (p : List Byte) : List Byte := joinBlocks (cbcEncBlocks key iv (splitBlocks p))

/-- `CbcDec` (rule R163): every call starts from `IV` (rule R162). -/
def cbcDec (key iv : Block) (c : List Byte) : List Byte := joinBlocks (cbcDecBlocks key iv (splitBlocks c))

/-- The number of padding bytes, 1 to 16 (rule R164, conflict C3). -/
def padLength (n : Nat) : Nat := 16 - n % 16

/-- `Pad` (rule R164). -/
def pad (x : List Byte) : List Byte :=
  x ++ List.replicate (padLength x.length) (BitVec.ofNat 8 (padLength x.length))

/-- The last byte of a sequence; `unpad` is called on positive multiples of 16 bytes only (rule R165, log entry 9). -/
def lastByte (p : List Byte) : Byte := byteAt p (p.length - 1)

/-- `Unpad` (rule R165): N is the last byte, and all of the last N bytes must be N. -/
def unpad (p : List Byte) : Result :=
  if (lastByte p).toNat = 0 ∨ (lastByte p).toNat > 16 then .err .badPadLength
  else if (p.drop (p.length - (lastByte p).toNat)).all (· == lastByte p) then
    .ok (p.take (p.length - (lastByte p).toNat))
  else .err .badPadBytes

/-- `CbcDecrypt` (rule R166, conflict C4: length 0 is an error). -/
def cbcDecrypt (key iv : Block) (c : List Byte) : Result :=
  if c.length = 0 ∨ c.length % 16 ≠ 0 then .err .badCipherLength else unpad (cbcDec key iv c)

/-- `CbcEncrypt` (rule R167). -/
def cbcEncrypt (key iv : Block) (x : List Byte) : Result := .ok (cbcEnc key iv (pad x))

/-- CBC_DECRYPT (rule R166). -/
def execCbcDecrypt (s : State) : Host.Outcome State Fault Refusal :=
  runCommand (cbcDecrypt s.params.key s.params.iv) s

/-- CBC_ENCRYPT (rule R167). -/
def execCbcEncrypt (s : State) : Host.Outcome State Fault Refusal :=
  runCommand (cbcEncrypt s.params.key s.params.iv) s

end Sys2Proof.Machine
end

