-- ==== Sys2Proof/Machine/Envelope.lean ====
section
/-! DEFINITION. The envelope codec: ENV_DECODE and ENV_ENCODE (rules R130 to R133). -/

namespace Sys2Proof.Machine

/-- `EnvDecode` (rule R132): the eight checks in their order, then the bytes between header and trailer. Conflict C1: every
check is made. -/
def envDecode (q : List Byte) : Result :=
  if q.length < 13 then .err .tooShort
  else if byteAt q 0 ≠ 0x7E then .err .badMagic0
  else if byteAt q 1 ≠ 0x00 then .err .badMagic1
  else if byteAt q 6 ≠ 0x7F then .err .badMagic6
  else if byteAt q 7 ≠ 0x01 then .err .badMagic7
  else if byteAt q (q.length - 1) ≠ 0x7B then .err .badTrailer
  else if (rdLe32 q 2).toNat ≠ (q.length - 13) + 7 then .err .badOuterLen
  else if (rdLe32 q 8).toNat ≠ q.length - 13 then .err .badInnerLen
  else .ok (slice q 12 (q.length - 1))

/-- The qbl buffer that carries a payload (rules R130 and R133). -/
def envFrame (c : List Byte) : List Byte :=
  [0x7E, 0x00] ++ le32 (c.length + 7) ++ [0x7F, 0x01] ++ le32 c.length ++ c ++ [0x7B]

/-- `EnvEncode` (rule R133): FormatError 9 when `n + 7` does not fit in 32 bits, without wrap-around (rule R9). -/
def envEncode (c : List Byte) : Result :=
  if c.length + 7 > 0xFFFFFFFF then .err .lengthOverflow else .ok (envFrame c)

/-- ENV_DECODE (rule R132). -/
def execEnvDecode (s : State) : Host.Outcome State Fault Refusal := runCommand envDecode s

/-- ENV_ENCODE (rule R133). -/
def execEnvEncode (s : State) : Host.Outcome State Fault Refusal := runCommand envEncode s

end Sys2Proof.Machine
end

