-- ==== Sys2Proof/Machine/LengthPrefix.lean ====
section
/-! DEFINITION. The length-prefix codec: LEB_DECODE and LEB_ENCODE (rules R250 to R253). -/

namespace Sys2Proof.Machine

/-- `TermIndex` (rule R251): the least index of a byte with bit 7 clear. -/
def termIndex : List Byte → Option Nat
  | [] => none
  | d :: ds => if d.getLsbD 7 then (termIndex ds).map (· + 1) else some 0

/-- `LebDecode` (rule R252): the scan alone finds the end of the length digits, whose value is never computed (conflict C6). -/
def lebDecode (b : List Byte) : Result :=
  match termIndex b with
  | none => .err .noTerminator
  | some t => .ok (b.drop (t + 1))

/-- The loop of `LebEncode` on `rem`, at most `fuel` times (rule R253; log entry 11: `fuel = rem` is always enough). -/
def lebLoop : (fuel rem : Nat) → List Byte
  | 0, rem => [BitVec.ofNat 8 rem]
  | fuel + 1, rem =>
    if rem > 0x7F then (0x80#8 ||| BitVec.ofNat 8 (rem &&& 0x7F)) :: lebLoop fuel (rem >>> 7)
    else [BitVec.ofNat 8 rem]

/-- The length digits that LEB_ENCODE writes before `n` bytes (rule R253). -/
def lebDigits (n : Nat) : List Byte := lebLoop n n

/-- The value that length digits encode: digit `i` weighs `128^i` (rule R250). No command computes it. -/
def lebValue : List Byte → Nat
  | [] => 0
  | d :: ds => (d &&& 0x7F).toNat + 128 * lebValue ds

/-- `LebEncode` (rule R253). -/
def lebEncode (x : List Byte) : Result := .ok (lebDigits x.length ++ x)

/-- LEB_DECODE (rule R252). -/
def execLebDecode (s : State) : Host.Outcome State Fault Refusal := runCommand lebDecode s

/-- LEB_ENCODE (rule R253). -/
def execLebEncode (s : State) : Host.Outcome State Fault Refusal := runCommand lebEncode s

end Sys2Proof.Machine
end

