-- ==== Sys2Proof/Machine/Pipeline.lean ====
section
/-! DEFINITION. The pipeline commands: QBL_TO_XML and XML_TO_QBL (rules R280 to R282). The intermediate buffers exist only
inside one command step and are checked against no capacity (rule R280). -/

namespace Sys2Proof.Machine

/-- `QblToXml` (rule R281). -/
def qblToXml (key iv : Block) (q : List Byte) : Result :=
  ((envDecode q).thenRun (cbcDecrypt key iv)).thenRun lebDecode

/-- `XmlToQbl` (rule R282). -/
def xmlToQbl (key iv : Block) (x : List Byte) : Result :=
  ((lebEncode x).thenRun (cbcEncrypt key iv)).thenRun envEncode

/-- QBL_TO_XML (rule R281). -/
def execQblToXml (s : State) : Host.Outcome State Fault Refusal :=
  runCommand (qblToXml s.params.key s.params.iv) s

/-- XML_TO_QBL (rule R282). -/
def execXmlToQbl (s : State) : Host.Outcome State Fault Refusal :=
  runCommand (xmlToQbl s.params.key s.params.iv) s

end Sys2Proof.Machine
end

