-- ==== Sys2Proof/Machine/Dispatch.lean ====
section
/-! DEFINITION. The meaning of each command (the `case` of rule R111), one arm per row of the opcode table. -/

namespace Sys2Proof.Machine

def exec (i : Instr) (s : State) : Host.Outcome State Fault Refusal :=
  match i with
  | .envDecode => Sys2Proof.Machine.execEnvDecode s
  | .envEncode => Sys2Proof.Machine.execEnvEncode s
  | .cbcDecrypt => Sys2Proof.Machine.execCbcDecrypt s
  | .cbcEncrypt => Sys2Proof.Machine.execCbcEncrypt s
  | .lebDecode => Sys2Proof.Machine.execLebDecode s
  | .lebEncode => Sys2Proof.Machine.execLebEncode s
  | .qblToXml => Sys2Proof.Machine.execQblToXml s
  | .xmlToQbl => Sys2Proof.Machine.execXmlToQbl s

end Sys2Proof.Machine
end

