-- ==== Sys2Proof/Machine/Turns.lean ====
section
/-! DEFINITION. The steps of the two agents and of the reset line (rules R7, R8, R84, R112 and R343), and the placing of a
command word where the engine takes its next command from. -/

namespace Sys2Proof.Machine

/-- The command step (rule R112): the engine runs the command whose word CMD holds, and an illegal word completes with
IllegalCommand and no other effect (rule R102). -/
def engineStep (s : State) : Host.Outcome State Fault Refusal :=
  match decode s.cmd with
  | .ok i => exec i s
  | .error r => .next (s.complete (.err (illegalError r)))

/-- The engine's turn: its step is "enabled exactly when `REG.STATUS.BUSY = 1`" (rule R112); in phase IDLE the turn passes
(log entry 4). -/
def engineTurn (s : State) : Host.Outcome State Fault Refusal := if s.busy then engineStep s else .next s

/-- The host's turn: one access, with its reply; a BusError is a fault of the host's step (rules R75 and R306). -/
def hostTurn (a : Access) (s : State) : Host.Outcome State Fault Refusal :=
  match hostAccess a s with
  | some (r, t) => .next (t.record r)
  | none => .fault .busError

/-- The next turn of the machine (rules R7 and R84). When no turn is to come, the engine takes its own, so that a started
command is always completed (rule R353), and an idle block stays as it is. -/
def takeTurn (s : State) : Host.Outcome State Fault Refusal :=
  match s.turns with
  | [] => engineTurn s
  | .engine :: ts => engineTurn (s.withTurns ts)
  | .host a :: ts => hostTurn a (s.withTurns ts)
  | .reset :: ts => .next (s.withTurns ts).resetBlock

/-- The engine comes before every turn to come. -/
def engineFirst : List Turn → List Turn
  | [] => []
  | t :: ts => .engine :: t :: ts

/-- The state in which command word `v` has just been accepted into CMD (rule R110), with the engine's turn next. -/
def placeCommand (v : Word) (s : State) : State :=
  { s with cmd := v, outLen := 0, errCause := 0, status := statusBusy, turns := engineFirst s.turns }

end Sys2Proof.Machine
end

