-- ==== Sys2Proof/Machine/Step.lean ====
section
/-! DEFINITION. One step of the machine (rule R7): one host access, one command step of the engine, or one reset. -/

namespace Sys2Proof.Machine

/-- One step: the next turn of `State.turns`. -/
def step (s : State) : Host.Outcome State Fault Refusal := takeTurn s

/-- The state with a command word placed where the engine takes its next command from: accepted into CMD, phase BUSY, the
engine's turn next (rule R110; log entry 8). -/
def State.withFetchWord (s : State) (nbits w : Nat) : State := placeCommand (BitVec.ofNat 32 (w % 2 ^ nbits)) s

end Sys2Proof.Machine
end

