-- ==== Sys2Proof/Machine/HostProgram.lean ====
section
/-! DEFINITION. Host programs (rule R104): the statements of the host-program language and the accesses they stand for. -/

namespace Sys2Proof.Machine

/-- A statement of a host program (rule R104). -/
inductive HostStmt where
  /-- `wr REG, v`. -/
  | wr (r : Reg) (v : Word)
  /-- `rd REG`. -/
  | rd (r : Reg)
  /-- `wrin i, b0 … bk`. -/
  | wrin (i : Nat) (bs : List Byte)
  /-- `rdout i, n`. -/
  | rdout (i n : Nat)
  /-- The pseudo-statement `poll`, whose loop reads STATUS with BUSY set `busyReads` times and then once more. Rule R353 leaves
  the number open (log entry 12). -/
  | poll (busyReads : Nat)
  /-- The pseudo-statement `load b0 … bk`. -/
  | load (bs : List Byte)
  /-- The pseudo-statement `run MNEMONIC`. -/
  | run (i : Instr) (busyReads : Nat)
deriving DecidableEq, Repr

/-- `RegRead` of a register at its offset (rules R34 and R73). -/
def readRegAccess (r : Reg) : Access := { target := .cell .reg (Reg.offset r), op := .read32 }

/-- `RegWrite` of a register at its offset (rules R34 and R73). -/
def writeRegAccess (r : Reg) (v : Word) : Access := { target := .cell .reg (Reg.offset r), op := .write32 v }

/-- `InWrite(i, b0); InWrite(i+1, b1); …` (rules R72 and R104). -/
def writeInAccesses (i : Nat) : List Byte → List Access
  | [] => []
  | b :: bs => { target := .cell .input i, op := .write8 b } :: writeInAccesses (i + 1) bs

/-- `OutRead(i); OutRead(i+1); … ; OutRead(i+n−1)` (rules R72 and R104). -/
def readOutAccesses (i n : Nat) : List Access :=
  (List.range n).map fun k => { target := .cell .output (i + k), op := .read8 }

/-- The STATUS reads of one `poll` (rule R104). -/
def pollAccesses (busyReads : Nat) : List Access := List.replicate (busyReads + 1) (readRegAccess .status)

/-- The accesses a statement expands to (rule R104). -/
def stmtAccesses : HostStmt → List Access
  | .wr r v => [writeRegAccess r v]
  | .rd r => [readRegAccess r]
  | .wrin i bs => writeInAccesses i bs
  | .rdout i n => readOutAccesses i n
  | .poll k => pollAccesses k
  | .load bs => writeInAccesses 0 bs ++ [writeRegAccess .inLen (BitVec.ofNat 32 bs.length)]
  | .run i k => writeRegAccess .cmd (encode i) :: pollAccesses k

/-- The accesses of a host program, in the host's program order (rule R86). -/
def programAccesses (p : List HostStmt) : List Access := p.flatMap stmtAccesses

end Sys2Proof.Machine
end

