-- ==== Sys2Proof/Machine/HostRun.lean ====
section
/-! DEFINITION. The run of a host program, its end, and what is observed then (rule R345). -/

namespace Sys2Proof.Machine

/-! ## What is observed -/

/-- What a model's observation reads (rule R345). -/
structure Observation where
  status : Word
  outLen : Word
  errCause : Word
  result : List Byte
deriving DecidableEq, Repr

/-- STATUS, OUT_LEN, ERR_CAUSE and `OUT[0 .. OUT_LEN]` (rule R345). -/
def observe (s : State) : Observation :=
  { status := s.status, outLen := s.outLen, errCause := s.errCause, result := s.result }

/-! ## What becomes of a command in one step -/

/-- What a step does to a command. -/
inductive CommandEvent where
  /-- No command starts or stops. -/
  | quiet
  /-- An accepted CMD write starts a command (rule R110). -/
  | started
  /-- The command step: the command has ended (rules R112 and R345). -/
  | ended
  /-- A reset abandons the command, whose command step never happens (rule R343). -/
  | abandoned
deriving DecidableEq, Repr

/-- The access is a 32-bit write. -/
def isWrite32 : AccessOp → Bool
  | .write32 _ => true
  | .write8 _ => false
  | .read8 => false
  | .read32 => false
  | .otherWidth => false

/-- The access is a CMD write that is accepted: in phase IDLE, at the offset of CMD, 32 bits wide (rules R73 and R110). -/
def startsCommand (a : Access) (s : State) : Bool :=
  !s.busy && decide (locate s.params a.target = some (.reg, Reg.offset .cmd)) && isWrite32 a.op

/-- The event of an engine turn: the command step in phase BUSY, and nothing in phase IDLE (rule R112). -/
def engineEvent (s : State) : CommandEvent := if s.busy then .ended else .quiet

/-- The event of the next step, by its turn. -/
def nextEvent (s : State) : CommandEvent :=
  match s.turns with
  | [] => engineEvent s
  | .engine :: _ => engineEvent s
  | .host a :: _ => if startsCommand a s then .started else .quiet
  | .reset :: _ => if s.busy then .abandoned else .quiet

/-! ## The end of a host program -/

/-- What has become of the commands that a host program started: whether one of them is running, and how many a reset has
abandoned. Every other one has ended. -/
structure Progress where
  running : Bool
  abandoned : Nat
deriving DecidableEq, Repr

/-- A host program that has started no command yet. A command already running then is not its own (log entry 20). -/
def noCommandYet : Progress := { running := false, abandoned := 0 }

/-- The progress after an event. -/
def progressAfter (p : Progress) : CommandEvent → Progress
  | .quiet => p
  | .started => { p with running := true }
  | .ended => { p with running := false }
  | .abandoned => if p.running then { running := false, abandoned := p.abandoned + 1 } else p

/-- "Every command it started has ended" (rule R345): none is running, and none was abandoned, because the command step of an
abandoned command never comes (rule R343). -/
def commandsEnded (p : Progress) : Bool := !p.running && p.abandoned == 0

/-- The turn is an access of the host. -/
def isHostTurn : Turn → Bool
  | .host _ => true
  | .engine => false
  | .reset => false

/-- The host program "has issued its last access" (rule R345): no access of the host is still to come. -/
def lastAccessIssued (s : State) : Bool := s.turns.all fun t => !isHostTurn t

/-- "A host program has ended when it has issued its last access and every command it started has ended" (rule R345). -/
def programEnded (s : State) (p : Progress) : Bool := lastAccessIssued s && commandsEnded p

/-- The observation of the host program whose accesses are the host turns to come, at its end (rule R345): the first state of
the run in which the program has ended, looked for within `fuel` steps. None when it has not ended by then, or when the bus
refused an access (rule R306). -/
def observeRun : (fuel : Nat) → State → Progress → Option Observation
  | 0, s, p => if programEnded s p then some (observe s) else none
  | fuel + 1, s, p =>
    if programEnded s p then some (observe s)
    else
      match step s with
      | .next t => observeRun fuel t (progressAfter p (nextEvent s))
      | .fault _ => none
      | .refused _ => none

end Sys2Proof.Machine
end

