-- ==== Sys2Proof/Safety.lean ====
section
/-! DEFINITION. The terms that statements about the machine use: the outcome of a command as rule R111 writes it, what a
completed command leaves (rule R112), which accesses are accepted (rule R75), and the invariant of the machine's states. -/

namespace Sys2Proof.Machine

/-! ## The outcome of a command, as rule R111 writes it -/

/-- The `case op of` of rule R111, on the number OP. The last line is not reached: OP above 0x8 is IllegalCommand. -/
def codecByOp (p : Params) (op : Nat) (b : List Byte) : Result :=
  match op with
  | 0x1 => envDecode b
  | 0x2 => envEncode b
  | 0x3 => cbcDecrypt p.key p.iv b
  | 0x4 => cbcEncrypt p.key p.iv b
  | 0x5 => lebDecode b
  | 0x6 => lebEncode b
  | 0x7 => qblToXml p.key p.iv b
  | 0x8 => xmlToQbl p.key p.iv b
  | _ => .err .illegalOp

/-- `Exec(REG.CMD)` (rule R111): its checks in its order. -/
def execOutcome (s : State) : Result :=
  if (s.cmd.extractLsb' 0 4).toNat = 0 ∨ (s.cmd.extractLsb' 0 4).toNat > 8 then .err .illegalOp
  else if s.cmd.extractLsb' 4 28 ≠ 0 then .err .illegalBits
  else if s.inLen.toNat > s.params.inCap.toNat then .err .inputOverCap
  else
    match codecByOp s.params (s.cmd.extractLsb' 0 4).toNat s.input with
    | .ok y => if y.length > s.params.outCap.toNat then .err .resultOverCap else .ok y
    | .err e => .err e

/-! ## What a completed command leaves -/

/-- What no command changes (rule R112: "It never writes CMD, IN_LEN or IN"): CMD, IN_LEN, every byte of IN, the constants,
and the model's own record of turns and replies. -/
def CommandFrame (s t : State) : Prop :=
  t.cmd = s.cmd ∧ t.inLen = s.inLen ∧ (∀ a, t.inBuf.read a = s.inBuf.read a) ∧ t.params = s.params ∧
    t.turns = s.turns ∧ t.replies = s.replies

/-- `t` is `s` after a command that succeeded with `y` (rule R112, `Ok`): DONE, OUT_LEN is the length of `y`, ERR_CAUSE is 0,
`OUT[0 .. OUT_LEN]` is `y`, and the frame. -/
def DeliversResult (s t : State) (y : List Byte) : Prop :=
  t.status = 0x00000002 ∧ t.outLen.toNat = y.length ∧ t.errCause = 0 ∧ t.result = y ∧ CommandFrame s t

/-- `t` is `s` after a command that failed with ERR_CAUSE `code` (rule R112, `Err`; rule R304): DONE and ERR, OUT_LEN is 0, and
the frame. -/
def ReportsError (s t : State) (code : Word) : Prop :=
  t.status = 0x00000006 ∧ t.outLen = 0 ∧ t.errCause = code ∧ CommandFrame s t

/-- What `Result` the state `t` shows after the state `s`. -/
def ShowsOutcome (s t : State) (r : Result) : Prop :=
  match r with
  | .ok y => DeliversResult s t y
  | .err e => ReportsError s t e.code

/-- The input fits in IN: `IN_LEN ≤ IN_CAP`, the condition under which a legal command reads its input (rule R302). -/
def InputFits (s : State) : Prop := s.inLen.toNat ≤ s.params.inCap.toNat

/-- The capacity of OUT as a number. -/
def outRoom (s : State) : Nat := s.params.outCap.toNat

/-! ## Accepted accesses (rule R75) -/

/-- The access is 32 bits wide. -/
def wide32 : AccessOp → Bool
  | .read32 => true
  | .write32 _ => true
  | .read8 => false
  | .write8 _ => false
  | .otherWidth => false

/-- The access is 8 bits wide. -/
def wide8 : AccessOp → Bool
  | .read8 => true
  | .write8 _ => true
  | .read32 => false
  | .write32 _ => false
  | .otherWidth => false

/-- The access reads. -/
def isRead : AccessOp → Bool
  | .read8 => true
  | .read32 => true
  | .write8 _ => false
  | .write32 _ => false
  | .otherWidth => false

/-- The access at an offset of a space is none of those rule R75 refuses. -/
def acceptedAt (p : Params) (sp : Space) (o : Nat) (op : AccessOp) : Bool :=
  match sp with
  | .reg => decide (o % 4 = 0) && decide (o ≤ 0x18) && wide32 op
  | .input => decide (o < p.inCap.toNat) && wide8 op
  | .output => decide (o < p.outCap.toNat) && wide8 op

/-- The access is none of those rule R75 refuses. -/
def accepted (p : Params) (a : Access) : Bool :=
  match locate p a.target with
  | some (sp, o) => acceptedAt p sp o a.op
  | none => false

/-- A turn that cannot fault: the engine's, a reset, or an accepted access. -/
def turnAccepted (p : Params) : Turn → Bool
  | .host a => accepted p a
  | .engine => true
  | .reset => true

/-! ## The invariant -/

/-- What every reachable state satisfies. Rule R36: four values of STATUS, and what each goes with (rules R35, R38, R39, R110
and R112). Rules R43 and R44: both buffers are in canonical form within their capacity, and the result bytes are stored. Rule
R6: the parameters are legal. The draws of the buffers are ones already made. -/
structure MachineInv (s : State) : Prop where
  statusLegal : s.status = 0x0 ∨ s.status = 0x1 ∨ s.status = 0x2 ∨ s.status = 0x6
  untouched : s.status = 0x0 → s.cmd = 0 ∧ s.outLen = 0 ∧ s.errCause = 0
  running : s.status = 0x1 → s.outLen = 0 ∧ s.errCause = 0
  succeeded : s.status = 0x2 → s.errCause = 0 ∧ ∃ i, decode s.cmd = .ok i
  failed : s.status = 0x6 → s.outLen = 0 ∧ ∃ e : CommandError, s.errCause = e.code
  outLenFits : s.outLen.toNat ≤ s.params.outCap.toNat
  inCanonical : s.inBuf.wf = true
  outCanonical : s.outBuf.wf = true
  inBounded : ∀ c ∈ s.inBuf.cells, c.1 < s.params.inCap.toNat
  outBounded : ∀ c ∈ s.outBuf.cells, c.1 < s.params.outCap.toNat
  resultStored : ∀ k, k < s.outLen.toNat → (s.outBuf.stored k).isSome = true
  drawsMade : s.inBuf.draw < s.draws ∧ s.outBuf.draw < s.draws ∧ s.inBuf.draw ≠ s.outBuf.draw
  paramsLegal : s.params.wf = true

end Sys2Proof.Machine
end

