-- ==== Sys2Proof/Certificates/Slice0/Obligations.lean ====
section
/-! DEFINITION. The statements for the provers, each from the numbered rules of the spec. -/

open Sys2Proof Sys2Proof.Machine

/-! ## Reset and the invariant -/

/-- The reset state satisfies the invariant of rules R6, R30, R36, R38, R39, R43 and R44. -/
def Obligations.ResetSatisfiesMachineInvariant : Prop := MachineInv State.reset

/-- Every step keeps the invariant: the legal values of STATUS and what each goes with (rules R36, R38, R39), the canonical
form and the bounds of both buffers (rules R43, R44), and the legal parameters (rules R6, R71). The four values of STATUS and
the bound of OUT_LEN are the spec's own derivations; the canonical form and the draws are the model's (log entries 1 and 2). -/
def Obligations.EveryStepKeepsMachineInvariant : Prop := ∀ s t : State, MachineInv s → step s = .next t → MachineInv t

/-- Rule R340: the value of every piece of state after reset. IN and OUT hold any value; that their bytes come from draws 0
and 1 is the model's choice (log entries 1 and 5). -/
def Obligations.ResetGivesTheTableOfValues : Prop :=
  regRead 0x00 State.reset = some 0x00000000 ∧ regRead 0x04 State.reset = some 0x00000000 ∧
  regRead 0x08 State.reset = some 0x00000000 ∧ regRead 0x0C State.reset = some 0x00000000 ∧
  regRead 0x10 State.reset = some 0x00000000 ∧ regRead 0x14 State.reset = some Config.inCap ∧
  regRead 0x18 State.reset = some Config.outCap ∧ State.reset.busy = false ∧ State.reset.params = Config.params ∧
  (∀ i, State.reset.inBuf.read i = Config.freeByte 0 i) ∧ ∀ i, State.reset.outBuf.read i = Config.freeByte 1 i

/-- Rule R343, with rules R340 to R342: a reset gives the reset values whatever ran, keeps the constants, draws both buffers
anew, and leaves no command step to come; and only a reset or the command step ends phase BUSY. -/
def Obligations.ResetAbandonsTheCommand : Prop :=
  (∀ (s : State) (ts : List Turn), s.turns = .reset :: ts →
    ∃ t, step s = .next t ∧ t.cmd = 0 ∧ t.status = 0 ∧ t.inLen = 0 ∧ t.outLen = 0 ∧ t.errCause = 0 ∧ t.params = s.params ∧
      (∀ i, t.inBuf.read i = Config.freeByte s.draws i) ∧ (∀ i, t.outBuf.read i = Config.freeByte (s.draws + 1) i) ∧
      t.turns = ts ∧ t.replies = s.replies ∧ engineTurn t = .next t) ∧
  ∀ s t : State, s.busy = true → step s = .next t → t.busy = false →
    (∃ ts, s.turns = .reset :: ts) ∨
    ∃ ts, (s.turns = [] ∧ ts = [] ∨ s.turns = .engine :: ts) ∧ engineStep (s.withTurns ts) = .next t

/-! ## Command words -/

/-- Decoder and encoder agree in both directions, on words and on byte lanes (rules R79, R100 and R101). -/
def Obligations.DecodeAndEncodeAgree : Prop :=
  (∀ i : Instr, decode (encode i) = .ok i ∧ decodeLanes (encodeLanes i) = .ok i) ∧
  (∀ (w : Word) (i : Instr), decode w = .ok i → w = encode i) ∧
  ∀ (bs : List Byte) (i : Instr), decodeLanes bs = .ok i → bs = encodeLanes i

/-- Rule R101: the eight CMD words and their commands, each selected by the whole word. -/
def Obligations.WholeWordSelectsTheCommand : Prop :=
  ∀ (w : Word) (i : Instr), decode w = .ok i ↔
    (w = 0x00000001 ∧ i = .envDecode) ∨ (w = 0x00000002 ∧ i = .envEncode) ∨ (w = 0x00000003 ∧ i = .cbcDecrypt) ∨
    (w = 0x00000004 ∧ i = .cbcEncrypt) ∨ (w = 0x00000005 ∧ i = .lebDecode) ∨ (w = 0x00000006 ∧ i = .lebEncode) ∨
    (w = 0x00000007 ∧ i = .qblToXml) ∨ (w = 0x00000008 ∧ i = .xmlToQbl)

/-- Rule R102: which words are illegal, that an illegal word is accepted into CMD and starts a command, and that its command
step completes with IllegalCommand and no other effect. -/
def Obligations.IllegalWordsFailAtTheCommandStep : Prop :=
  ∀ w : Word,
    ((w.extractLsb' 0 4).toNat = 0 ∨ 9 ≤ (w.extractLsb' 0 4).toNat → decode w = .error .reservedOp) ∧
    (1 ≤ (w.extractLsb' 0 4).toNat → (w.extractLsb' 0 4).toNat ≤ 8 → w.extractLsb' 4 28 ≠ 0 →
      decode w = .error .reservedBits) ∧
    (1 ≤ (w.extractLsb' 0 4).toNat → (w.extractLsb' 0 4).toNat ≤ 8 → w.extractLsb' 4 28 = 0 → ∃ i, decode w = .ok i) ∧
    ∀ s : State, s.busy = false → ∃ u, regWrite 0x00 w s = some u ∧ u.cmd = w ∧ u.busy = true ∧
      (decode w = .error .reservedOp → ∃ t, engineTurn u = .next t ∧ ReportsError u t 0x00000103) ∧
      (decode w = .error .reservedBits → ∃ t, engineTurn u = .next t ∧ ReportsError u t 0x00000203)

/-- The byte lanes and the table words of four rows decode to their commands (rules R79 and R101), and the words of vectors
V60, V60a and V60c decode to none. -/
def Obligations.WrittenOutWordsDecode : Prop :=
  decodeLanes [0x01, 0x00, 0x00, 0x00] = .ok .envDecode ∧ decodeLanes [0x04, 0x00, 0x00, 0x00] = .ok .cbcEncrypt ∧
  decodeTableWord 32 0x00000005 = some .lebDecode ∧ decodeTableWord 32 0x00000008 = some .xmlToQbl ∧
  decodeTableWord 32 0x00000000 = none ∧ decodeTableWord 32 0x00000009 = none ∧ decodeTableWord 32 0x00000011 = none

/-! ## The engine -/

/-- In phase BUSY, when CMD holds the word of a command and the engine is next, a step is that command's meaning; the turn it
used is gone (rules R111 and R112). -/
def Obligations.StepRunsTheDecodedCommand : Prop :=
  ∀ (s : State) (i : Instr), s.busy = true → decode s.cmd = .ok i →
    (s.turns = [] → step s = exec i s) ∧ ∀ ts, s.turns = .engine :: ts → step s = exec i (s.withTurns ts)

/-- The model's choice (log entry 8), not a rule of the spec: a placed command word is run by the very next step, in the state
an accepted CMD write leaves (rule R110). -/
def Obligations.PlacedWordRunsNext : Prop :=
  ∀ (s : State) (i : Instr), decodeTableWord 32 (encode i).toNat = some i ∧
    step (s.withFetchWord 32 (encode i).toNat) =
      exec i { s with cmd := encode i, outLen := 0, errCause := 0, status := 0x00000001 }

/-- Rule R110: a CMD write is dropped in phase BUSY and starts a command in phase IDLE, whatever its value, changing CMD,
OUT_LEN, ERR_CAUSE and STATUS and nothing else. -/
def Obligations.CmdWriteStartsACommand : Prop :=
  ∀ (s : State) (v : Word),
    (s.busy = true → regWrite 0x00 v s = some s) ∧
    (s.busy = false →
      regWrite 0x00 v s = some { s with cmd := v, outLen := 0, errCause := 0, status := 0x00000001 })

/-- Rule R111: the outcome of a command is what `Exec` gives, its checks in their order, and `Exec` depends on the command
word, IN_LEN, the input bytes and the constants alone. -/
def Obligations.CommandOutcomeIsExec : Prop :=
  (∀ s : State, s.busy = true → engineTurn s = .next (s.complete (execOutcome s))) ∧
  ∀ s u : State, u.cmd = s.cmd → u.inLen = s.inLen → u.params = s.params →
    (∀ k, k < s.inLen.toNat → u.inBuf.read k = s.inBuf.read k) → execOutcome u = execOutcome s

/-- Rule R112: the command step is enabled exactly in phase BUSY, stays enabled while the host takes turns, and writes OUT,
OUT_LEN, ERR_CAUSE and STATUS as the outcome says and CMD, IN_LEN and IN not at all. OUT above the result is any value: the
bytes of a new draw. -/
def Obligations.CommandStepWritesTheOutcome : Prop :=
  ∀ s : State,
    (s.busy = false → engineTurn s = .next s) ∧
    (s.busy = true →
      (∃ t, engineTurn s = .next t ∧ ShowsOutcome s t (execOutcome s) ∧
        ∀ k, t.outLen.toNat ≤ k → k < outRoom s → t.outBuf.read k = Config.freeByte s.draws k) ∧
      ∀ a t, hostTurn a s = .next t → t.busy = true)

/-- Rule R302, for every command: IN_LEN above IN_CAP is CapacityError 1, a result longer than OUT_CAP is CapacityError 2, and
OUT then holds any value. -/
def Obligations.CapacityErrorsOfEveryCommand : Prop :=
  ∀ (i : Instr) (s : State),
    (s.params.inCap.toNat < s.inLen.toNat →
      ∃ t, exec i s = .next t ∧ ReportsError s t 0x00000104 ∧ ∀ k, t.outBuf.read k = Config.freeByte s.draws k) ∧
    (∀ y, InputFits s → codecByOp s.params i.op.toNat s.input = .ok y → outRoom s < y.length →
      ∃ t, exec i s = .next t ∧ ReportsError s t 0x00000204 ∧ ∀ k, t.outBuf.read k = Config.freeByte s.draws k)

/-- The ERR_CAUSE column of rule R300. -/
def Obligations.ErrorCodesAreTheTable : Prop :=
  CommandError.tooShort.code = 0x0101 ∧ CommandError.badMagic0.code = 0x0201 ∧ CommandError.badMagic1.code = 0x0301 ∧
  CommandError.badMagic6.code = 0x0401 ∧ CommandError.badMagic7.code = 0x0501 ∧ CommandError.badTrailer.code = 0x0601 ∧
  CommandError.badOuterLen.code = 0x0701 ∧ CommandError.badInnerLen.code = 0x0801 ∧
  CommandError.lengthOverflow.code = 0x0901 ∧ CommandError.noTerminator.code = 0x0A01 ∧
  CommandError.badCipherLength.code = 0x0102 ∧ CommandError.badPadLength.code = 0x0202 ∧
  CommandError.badPadBytes.code = 0x0302 ∧ CommandError.illegalOp.code = 0x0103 ∧
  CommandError.illegalBits.code = 0x0203 ∧ CommandError.inputOverCap.code = 0x0104 ∧
  CommandError.resultOverCap.code = 0x0204

/-- Noninterference (rule R111): two busy states that agree on CMD, IN_LEN, the constants and the input bytes show the same
observation (rule R345) after their command steps, whatever else differs. -/
def Obligations.ObservationDependsOnCommandAndInputOnly : Prop :=
  ∀ s u : State, s.busy = true → u.busy = true → u.cmd = s.cmd → u.inLen = s.inLen → u.params = s.params →
    (∀ k, k < s.inLen.toNat → u.inBuf.read k = s.inBuf.read k) →
    ∃ t v, engineTurn s = .next t ∧ engineTurn u = .next v ∧ observe t = observe v

/-! ## The eight commands -/

/-- ENV_DECODE of a well-formed qbl buffer (rule R130) delivers its payload (rule R132). -/
def Obligations.EnvDecodeDeliversThePayload : Prop :=
  ∀ (s : State) (c : List Byte), InputFits s →
    s.input = [0x7E, 0x00] ++ le32 (c.length + 7) ++ [0x7F, 0x01] ++ le32 c.length ++ c ++ [0x7B] →
    c.length ≤ outRoom s →
    ∃ t, exec .envDecode s = .next t ∧ DeliversResult s t c

/-- Rule R132: the CMD word, the eight checks in their order, and the payload when all hold. -/
def Obligations.EnvDecodeMakesEightChecks : Prop :=
  decode 0x00000001 = .ok .envDecode ∧
  ∀ s : State, InputFits s →
    ∃ t, exec .envDecode s = .next t ∧
      if s.input.length < 13 then ReportsError s t 0x00000101
      else if s.input.getD 0 0 ≠ 0x7E then ReportsError s t 0x00000201
      else if s.input.getD 1 0 ≠ 0x00 then ReportsError s t 0x00000301
      else if s.input.getD 6 0 ≠ 0x7F then ReportsError s t 0x00000401
      else if s.input.getD 7 0 ≠ 0x01 then ReportsError s t 0x00000501
      else if s.input.getD (s.input.length - 1) 0 ≠ 0x7B then ReportsError s t 0x00000601
      else if (s.input.getD 2 0).toNat + (s.input.getD 3 0).toNat * 2 ^ 8 + (s.input.getD 4 0).toNat * 2 ^ 16 +
          (s.input.getD 5 0).toNat * 2 ^ 24 ≠ s.input.length - 13 + 7 then ReportsError s t 0x00000701
      else if (s.input.getD 8 0).toNat + (s.input.getD 9 0).toNat * 2 ^ 8 + (s.input.getD 10 0).toNat * 2 ^ 16 +
          (s.input.getD 11 0).toNat * 2 ^ 24 ≠ s.input.length - 13 then ReportsError s t 0x00000801
      else if outRoom s < s.input.length - 13 then ReportsError s t 0x00000204
      else DeliversResult s t ((s.input.take (s.input.length - 1)).drop 12)

/-- Rule R133: the CMD word, the frame that ENV_ENCODE builds, and its two errors. -/
def Obligations.EnvEncodeBuildsTheFrame : Prop :=
  decode 0x00000002 = .ok .envEncode ∧
  ∀ s : State, InputFits s →
    (s.input.length + 13 ≤ outRoom s →
      ∃ t, exec .envEncode s = .next t ∧
        DeliversResult s t ([0x7E, 0x00] ++ le32 (s.input.length + 7) ++ [0x7F, 0x01] ++ le32 s.input.length ++ s.input ++
          [0x7B]) ∧
        t.outLen.toNat = s.input.length + 13) ∧
    (s.input.length + 7 > 0xFFFFFFFF → ∃ t, exec .envEncode s = .next t ∧ ReportsError s t 0x00000901) ∧
    (s.input.length + 7 ≤ 0xFFFFFFFF → outRoom s < s.input.length + 13 →
      ∃ t, exec .envEncode s = .next t ∧ ReportsError s t 0x00000204)

/-- Rule R166: the CMD word, the three checks of CBC_DECRYPT in their order, and the plaintext without its last N bytes. -/
def Obligations.CbcDecryptUnpadsThePlaintext : Prop :=
  decode 0x00000003 = .ok .cbcDecrypt ∧
  ∀ (s : State) (p : List Byte) (n : Nat), InputFits s → p = cbcDec s.params.key s.params.iv s.input →
    n = (p.getD (p.length - 1) 0).toNat →
    (s.input.length = 0 ∨ s.input.length % 16 ≠ 0 →
      ∃ t, exec .cbcDecrypt s = .next t ∧ ReportsError s t 0x00000102) ∧
    (s.input.length ≠ 0 → s.input.length % 16 = 0 →
      p.length = s.input.length ∧
      (n = 0 ∨ 16 < n → ∃ t, exec .cbcDecrypt s = .next t ∧ ReportsError s t 0x00000202) ∧
      (1 ≤ n → n ≤ 16 → (∃ k, 1 ≤ k ∧ k ≤ n ∧ (p.getD (p.length - k) 0).toNat ≠ n) →
        ∃ t, exec .cbcDecrypt s = .next t ∧ ReportsError s t 0x00000302) ∧
      (1 ≤ n → n ≤ 16 → (∀ k, 1 ≤ k → k ≤ n → (p.getD (p.length - k) 0).toNat = n) →
        (outRoom s < p.length - n → ∃ t, exec .cbcDecrypt s = .next t ∧ ReportsError s t 0x00000204) ∧
        (p.length - n ≤ outRoom s →
          ∃ t, exec .cbcDecrypt s = .next t ∧ DeliversResult s t (p.take (p.length - n)))))

/-- Rule R167: the CMD word, the ciphertext of the padded input, its length, and the one error. -/
def Obligations.CbcEncryptPadsAndChains : Prop :=
  decode 0x00000004 = .ok .cbcEncrypt ∧
  ∀ s : State, InputFits s →
    (16 * (s.input.length / 16 + 1) ≤ outRoom s →
      ∃ t, exec .cbcEncrypt s = .next t ∧ DeliversResult s t (cbcEnc s.params.key s.params.iv (pad s.input)) ∧
        t.outLen.toNat = 16 * (s.input.length / 16 + 1)) ∧
    (outRoom s < 16 * (s.input.length / 16 + 1) →
      ∃ t, exec .cbcEncrypt s = .next t ∧ ReportsError s t 0x00000204)

/-- Rule R252: the CMD word, FormatError 10 when no byte ends the scan, and otherwise every byte after the first one with bit
7 clear, whatever value the bytes before it encode. -/
def Obligations.LebDecodeScansToTheTerminator : Prop :=
  decode 0x00000005 = .ok .lebDecode ∧
  ∀ s : State, InputFits s →
    ((∀ d ∈ s.input, d.getLsbD 7 = true) → ∃ t, exec .lebDecode s = .next t ∧ ReportsError s t 0x00000A01) ∧
    ∀ (pre : List Byte) (d : Byte) (rest : List Byte), s.input = pre ++ d :: rest →
      (∀ e ∈ pre, e.getLsbD 7 = true) → d.getLsbD 7 = false →
      (rest.length ≤ outRoom s → ∃ t, exec .lebDecode s = .next t ∧ DeliversResult s t rest) ∧
      (outRoom s < rest.length → ∃ t, exec .lebDecode s = .next t ∧ ReportsError s t 0x00000204)

/-- Rule R253: the CMD word, the loop that writes the length digits, their number and value, the result and the one error. -/
def Obligations.LebEncodeWritesTheLength : Prop :=
  decode 0x00000006 = .ok .lebEncode ∧
  (∀ n, lebDigits n =
    if n > 0x7F then (0x80#8 ||| BitVec.ofNat 8 (n &&& 0x7F)) :: lebDigits (n >>> 7) else [BitVec.ofNat 8 n]) ∧
  (∀ n k, 1 ≤ k → ((lebDigits n).length ≤ k ↔ n < 128 ^ k)) ∧
  (∀ n, lebValue (lebDigits n) = n) ∧
  ∀ s : State, InputFits s →
    ((lebDigits s.input.length).length + s.input.length ≤ outRoom s →
      ∃ t, exec .lebEncode s = .next t ∧ DeliversResult s t (lebDigits s.input.length ++ s.input)) ∧
    (outRoom s < (lebDigits s.input.length).length + s.input.length →
      ∃ t, exec .lebEncode s = .next t ∧ ReportsError s t 0x00000204)

/-- Rule R281, with rule R280: the CMD word and the three decoders in turn, the first error ending the command, only the last
result checked against OUT_CAP. -/
def Obligations.QblToXmlRunsTheDecoders : Prop :=
  decode 0x00000007 = .ok .qblToXml ∧
  ∀ s : State, InputFits s →
    (∀ e, envDecode s.input = .err e → ∃ t, exec .qblToXml s = .next t ∧ ReportsError s t e.code) ∧
    (∀ c e, envDecode s.input = .ok c → cbcDecrypt s.params.key s.params.iv c = .err e →
      ∃ t, exec .qblToXml s = .next t ∧ ReportsError s t e.code) ∧
    (∀ c l e, envDecode s.input = .ok c → cbcDecrypt s.params.key s.params.iv c = .ok l → lebDecode l = .err e →
      ∃ t, exec .qblToXml s = .next t ∧ ReportsError s t e.code) ∧
    ∀ c l x, envDecode s.input = .ok c → cbcDecrypt s.params.key s.params.iv c = .ok l → lebDecode l = .ok x →
      (x.length ≤ outRoom s → ∃ t, exec .qblToXml s = .next t ∧ DeliversResult s t x) ∧
      (outRoom s < x.length → ∃ t, exec .qblToXml s = .next t ∧ ReportsError s t 0x00000204)

/-- Rule R282: the CMD word, the three encoders in turn, the length of the result, and the two errors. -/
def Obligations.XmlToQblRunsTheEncoders : Prop :=
  decode 0x00000008 = .ok .xmlToQbl ∧
  ∀ (s : State) (n m : Nat) (c : List Byte), InputFits s → n = s.input.length →
    m = 16 * ((n + (lebDigits n).length) / 16 + 1) →
    c = cbcEnc s.params.key s.params.iv (pad (lebDigits n ++ s.input)) →
    (m + 13 ≤ outRoom s →
      ∃ t, exec .xmlToQbl s = .next t ∧ t.outLen.toNat = m + 13 ∧
        DeliversResult s t ([0x7E, 0x00] ++ le32 (m + 7) ++ [0x7F, 0x01] ++ le32 m ++ c ++ [0x7B])) ∧
    (m + 7 > 0xFFFFFFFF → ∃ t, exec .xmlToQbl s = .next t ∧ ReportsError s t 0x00000901) ∧
    (m + 7 ≤ 0xFFFFFFFF → outRoom s < m + 13 → ∃ t, exec .xmlToQbl s = .next t ∧ ReportsError s t 0x00000204)

/-! ## Round trips -/

/-- Rule R134: ENV_ENCODE succeeds with 13 bytes more, ENV_DECODE of its result succeeds with the input, and every buffer that
decodes is the encoding of its payload. -/
def Obligations.EnvelopeRoundTrip : Prop :=
  (∀ s : State, s.input.length + 13 ≤ s.params.inCap.toNat → s.input.length + 13 ≤ outRoom s →
    ∃ t, exec .envEncode s = .next t ∧ t.status = 0x00000002 ∧ t.outLen.toNat = s.input.length + 13 ∧
      ∀ u : State, u.params = s.params → u.input = t.result →
        ∃ v, exec .envDecode u = .next v ∧ DeliversResult u v s.input) ∧
  ∀ q c, envDecode q = .ok c → envEncode c = .ok q

/-- Rule R169: CBC_ENCRYPT succeeds and CBC_DECRYPT of its result succeeds with the input, for every key and IV. -/
def Obligations.CipherRoundTrip : Prop :=
  ∀ s : State, InputFits s → 16 * (s.input.length / 16 + 1) ≤ s.params.inCap.toNat →
    16 * (s.input.length / 16 + 1) ≤ outRoom s →
    ∃ t, exec .cbcEncrypt s = .next t ∧ t.status = 0x00000002 ∧
      ∀ u : State, u.params = s.params → u.input = t.result →
        ∃ v, exec .cbcDecrypt u = .next v ∧ DeliversResult u v s.input

/-- Rule R255: LEB_ENCODE succeeds and LEB_DECODE of its result succeeds with the input; the converse does not hold where the
length digits are non-minimal (they end in a zero digit) or their value is not the payload length. -/
def Obligations.LengthPrefixRoundTrip : Prop :=
  (∀ s : State, s.input.length + (lebDigits s.input.length).length ≤ s.params.inCap.toNat →
    s.input.length + (lebDigits s.input.length).length ≤ outRoom s →
    ∃ t, exec .lebEncode s = .next t ∧ t.status = 0x00000002 ∧
      ∀ u : State, u.params = s.params → u.input = t.result →
        ∃ v, exec .lebDecode u = .next v ∧ DeliversResult u v s.input) ∧
  ∀ (pre x : List Byte) (d : Byte), (∀ e ∈ pre, e.getLsbD 7 = true) → d.getLsbD 7 = false →
    lebDecode (pre ++ d :: x) = .ok x ∧
    (pre ≠ [] ∧ d = 0 ∨ lebValue (pre ++ [d]) ≠ x.length → lebEncode x ≠ .ok (pre ++ d :: x))

/-- Rule R283: (a) XML_TO_QBL then QBL_TO_XML gives the input back; (b) the other way round holds exactly for the results of
XML_TO_QBL, and some qbl buffer that decodes is none. -/
def Obligations.PipelineRoundTrip : Prop :=
  (∀ (s : State) (q : List Byte), xmlToQbl s.params.key s.params.iv s.input = .ok q →
    q.length ≤ s.params.inCap.toNat → q.length ≤ outRoom s →
    ∃ t, exec .xmlToQbl s = .next t ∧ DeliversResult s t q ∧
      ∀ u : State, u.params = s.params → u.input = q →
        ∃ v, exec .qblToXml u = .next v ∧ DeliversResult u v s.input) ∧
  (∀ key iv y, (∃ x, qblToXml key iv y = .ok x ∧ xmlToQbl key iv x = .ok y) ↔ ∃ x, xmlToQbl key iv x = .ok y) ∧
  ∀ key iv, ∃ y x, qblToXml key iv y = .ok x ∧ xmlToQbl key iv x ≠ .ok y

/-! ## The codecs -/

/-- Rule R130: the layout of a qbl buffer, offset by offset. -/
def Obligations.QblBufferLayout : Prop :=
  ∀ c : List Byte,
    (envFrame c).length = c.length + 13 ∧ (envFrame c)[0]? = some 0x7E ∧ (envFrame c)[1]? = some 0x00 ∧
    slice (envFrame c) 2 6 = le32 (c.length + 7) ∧ (envFrame c)[6]? = some 0x7F ∧ (envFrame c)[7]? = some 0x01 ∧
    slice (envFrame c) 8 12 = le32 c.length ∧ slice (envFrame c) 12 (12 + c.length) = c ∧
    (envFrame c)[12 + c.length]? = some 0x7B

/-- `le32` and `rd_le32` are inverse and least significant byte first, and lane `k` of a word carries bits `8k+7 : 8k` (rules
R10, R76 and R79). -/
def Obligations.LittleEndianWords : Prop :=
  (∀ (v : Nat) (pre post : List Byte), v < 2 ^ 32 → (rdLe32 (pre ++ le32 v ++ post) pre.length).toNat = v) ∧
  (∀ v k, k < 4 → (le32 v)[k]? = some (BitVec.ofNat 8 (v >>> (8 * k)))) ∧
  ∀ (w : Word) (k : Nat), k < 4 → (lanes w)[k]? = some (w.extractLsb' (8 * k) 8)

/-- Rule R251: TermIndex is the least index of a byte with bit 7 clear, and none when every byte has bit 7 set. -/
def Obligations.TermIndexIsTheFirstTerminator : Prop :=
  ∀ b : List Byte,
    (∀ t, termIndex b = some t ↔
      (∃ d, b[t]? = some d ∧ d.getLsbD 7 = false) ∧ ∀ i, i < t → ∃ d, b[i]? = some d ∧ d.getLsbD 7 = true) ∧
    (termIndex b = none ↔ ∀ d ∈ b, d.getLsbD 7 = true)

/-- Rule R254: the number of length digits of LEB_ENCODE, which of them have bit 7 set, and where the scan of its result
ends. -/
def Obligations.LengthDigitCount : Prop :=
  ∀ x : List Byte,
    (x.length < 2 ^ 7 → (lebDigits x.length).length = 1) ∧
    (2 ^ 7 ≤ x.length → x.length < 2 ^ 14 → (lebDigits x.length).length = 2) ∧
    (2 ^ 14 ≤ x.length → x.length < 2 ^ 21 → (lebDigits x.length).length = 3) ∧
    (2 ^ 21 ≤ x.length → x.length < 2 ^ 28 → (lebDigits x.length).length = 4) ∧
    (2 ^ 28 ≤ x.length → x.length < 2 ^ 35 → (lebDigits x.length).length = 5) ∧
    (∀ i, i + 1 < (lebDigits x.length).length →
      ∃ d, (lebDigits x.length)[i]? = some d ∧ d.getLsbD 7 = true) ∧
    (∃ d, (lebDigits x.length)[(lebDigits x.length).length - 1]? = some d ∧ d.getLsbD 7 = false) ∧
    termIndex (lebDigits x.length ++ x) = some ((lebDigits x.length).length - 1)

/-- Rule R164: N bytes of value N are added, N from 1 to 16, up to the least multiple of 16 above the length; a full block at an
exact multiple. -/
def Obligations.PaddingIsAlwaysAdded : Prop :=
  ∀ x : List Byte,
    (∃ n, n = 16 - x.length % 16 ∧ 1 ≤ n ∧ n ≤ 16 ∧ pad x = x ++ List.replicate n (BitVec.ofNat 8 n)) ∧
    (pad x).length % 16 = 0 ∧ x.length < (pad x).length ∧
    (∀ l, x.length < l → l % 16 = 0 → (pad x).length ≤ l) ∧
    (x.length % 16 = 0 → pad x = x ++ List.replicate 16 0x10)

/-- Rule R165: the checks of Unpad in their order on a positive multiple of 16 bytes, and that it undoes Pad. -/
def Obligations.UnpadChecksEveryPaddingByte : Prop :=
  (∀ (p : List Byte) (n : Nat), p.length ≠ 0 → p.length % 16 = 0 → n = (p.getD (p.length - 1) 0).toNat →
    (n = 0 ∨ 16 < n → unpad p = .err .badPadLength) ∧
    (1 ≤ n → n ≤ 16 → (∃ k, 1 ≤ k ∧ k ≤ n ∧ (p.getD (p.length - k) 0).toNat ≠ n) → unpad p = .err .badPadBytes) ∧
    (1 ≤ n → n ≤ 16 → (∀ k, 1 ≤ k → k ≤ n → (p.getD (p.length - k) 0).toNat = n) →
      unpad p = .ok (p.take (p.length - n)))) ∧
  ∀ x, unpad (pad x) = .ok x

/-- Rule R161: every ciphertext block is the encryption of its plaintext block combined with the ciphertext block before, and
the first with IV. -/
def Obligations.CbcEncryptionChain : Prop :=
  ∀ (key iv : Block) (p : List Byte) (m : Nat), 1 ≤ m → p.length = 16 * m →
    (cbcEnc key iv p).length = 16 * m ∧
    (∀ x, (splitBlocks p)[0]? = some x →
      (splitBlocks (cbcEnc key iv p))[0]? = some (aesEnc key (Block.xor x iv))) ∧
    ∀ j x c, (splitBlocks p)[j + 1]? = some x → (splitBlocks (cbcEnc key iv p))[j]? = some c →
      (splitBlocks (cbcEnc key iv p))[j + 1]? = some (aesEnc key (Block.xor x c))

/-- Rule R163: every plaintext block is the decryption of its ciphertext block combined with the ciphertext block before, and
the first with IV; and decryption undoes encryption. -/
def Obligations.CbcDecryptionChain : Prop :=
  ∀ (key iv : Block) (c : List Byte) (m : Nat), 1 ≤ m → c.length = 16 * m →
    (cbcDec key iv c).length = 16 * m ∧
    (∀ x, (splitBlocks c)[0]? = some x →
      (splitBlocks (cbcDec key iv c))[0]? = some (Block.xor (aesDec key x) iv)) ∧
    (∀ j x y, (splitBlocks c)[j + 1]? = some x → (splitBlocks c)[j]? = some y →
      (splitBlocks (cbcDec key iv c))[j + 1]? = some (Block.xor (aesDec key x) y)) ∧
    cbcDec key iv (cbcEnc key iv c) = c

/-- IV reuse (rule R168, which the spec marks as its own derivation from rules R161 and R162): inputs that agree on their first
`16k` bytes give ciphertexts that agree on their first `16k` bytes. -/
def Obligations.EqualStartsEncryptAlike : Prop :=
  ∀ (key iv : Block) (x y cx cy : List Byte) (k : Nat), 16 * k ≤ x.length → 16 * k ≤ y.length →
    x.take (16 * k) = y.take (16 * k) → cbcEncrypt key iv x = .ok cx → cbcEncrypt key iv y = .ok cy →
    cx.take (16 * k) = cy.take (16 * k)

/-! ## AES-128 -/

/-- Rule R213: encryption and decryption undo each other, for every key and block. -/
def Obligations.AesInverseLaw : Prop := ∀ k x : Block, aesDec k (aesEnc k x) = x ∧ aesEnc k (aesDec k x) = x

/-- Rule R203: the S-box is the affine image of the multiplicative inverse of rule R202. -/
def Obligations.SboxIsTheAffineImage : Prop :=
  ∀ a : Byte, ∃ t : Byte, (a = 0 → t = 0) ∧ (a ≠ 0 → gmul a t = 0x01) ∧
    ∀ i, i < 8 → (sbox a).getLsbD i =
      (t.getLsbD i ^^ t.getLsbD ((i + 4) % 8) ^^ t.getLsbD ((i + 5) % 8) ^^ t.getLsbD ((i + 6) % 8) ^^
        t.getLsbD ((i + 7) % 8) ^^ (0x63#8).getLsbD i)

/-- Rule R204: the inverse S-box is the inverse permutation of the S-box. -/
def Obligations.InverseSboxInverts : Prop := ∀ a : Byte, invSbox (sbox a) = a ∧ sbox (invSbox a) = a

/-- InvMixColumns undoes MixColumns and MixColumns undoes InvMixColumns (rule R208, used by rule R213). -/
def Obligations.MixColumnsInverts : Prop :=
  ∀ s : Block, invMixColumns (mixColumns s) = s ∧ mixColumns (invMixColumns s) = s

/-- Rules R207 and R201: the two row shifts entry by entry, and where a stored block has each entry. -/
def Obligations.RowShiftsAndBlockOrder : Prop :=
  ∀ (s : Block) (r c : Nat), r < 4 → c < 4 →
    stateByte (shiftRows s) r c = stateByte s r ((c + r) % 4) ∧
    stateByte (invShiftRows s) r c = stateByte s r ((c + 4 - r) % 4) ∧
    (Block.bytes s)[r + 4 * c]? = some (stateByte s r c) ∧ splitBlocks (Block.bytes s) = [s]

/-- Rule R210: the recurrence of the key schedule, for every key, with RotWord, SubWord and the round constants (rule R205). -/
def Obligations.KeyScheduleRecurrence : Prop :=
  (∀ a0 a1 a2 a3 : Byte, rotWord ⟨a0, a1, a2, a3⟩ = ⟨a1, a2, a3, a0⟩ ∧
    subWord ⟨a0, a1, a2, a3⟩ = ⟨sbox a0, sbox a1, sbox a2, sbox a3⟩) ∧
  (∀ (k : Block) (i : Nat), i < 4 → scheduleWord k i = blockColumn k i) ∧
  (∀ (k : Block) (i : Nat), 4 ≤ i → i < 44 →
    scheduleWord k i =
      Column.xor (scheduleWord k (i - 4))
        (if i % 4 = 0 then Column.xor (subWord (rotWord (scheduleWord k (i - 1)))) (rcon (i / 4 - 1))
         else scheduleWord k (i - 1))) ∧
  (∀ k i, roundKey k i =
    ⟨scheduleWord k (4 * i), scheduleWord k (4 * i + 1), scheduleWord k (4 * i + 2), scheduleWord k (4 * i + 3)⟩) ∧
  (List.range 10).map rcon =
    [⟨0x01, 0, 0, 0⟩, ⟨0x02, 0, 0, 0⟩, ⟨0x04, 0, 0, 0⟩, ⟨0x08, 0, 0, 0⟩, ⟨0x10, 0, 0, 0⟩, ⟨0x20, 0, 0, 0⟩,
     ⟨0x40, 0, 0, 0⟩, ⟨0x80, 0, 0, 0⟩, ⟨0x1b, 0, 0, 0⟩, ⟨0x36, 0, 0, 0⟩]

/-! ## Host accesses -/

/-- Rule R73: every register read and write by offset, BusError at every other offset and every other width, and no side
effect of a read. The reads are those of a state of the invariant, whose always-zero bits are 0 (rules R36 and R39). -/
def Obligations.RegisterAccessesByOffset : Prop :=
  (∀ s : State, MachineInv s →
    regRead 0x00 s = some s.cmd ∧ regRead 0x04 s = some s.status ∧ regRead 0x08 s = some s.inLen ∧
    regRead 0x0C s = some s.outLen ∧ regRead 0x10 s = some s.errCause ∧ regRead 0x14 s = some s.params.inCap ∧
    regRead 0x18 s = some s.params.outCap) ∧
  ∀ (s : State) (o : Nat) (v : Word) (b : Byte),
    (¬ (o % 4 = 0 ∧ o ≤ 0x18) → regRead o s = none ∧ regWrite o v s = none) ∧
    (o % 4 = 0 → o ≤ 0x18 → o ≠ 0x00 → o ≠ 0x08 → regWrite o v s = some s) ∧
    regWrite 0x00 v s = some (s.startCommand v) ∧
    (s.busy = false → regWrite 0x08 v s = some { s with inLen := v }) ∧
    (s.busy = true → regWrite 0x08 v s = some s) ∧
    accessAt .reg o .read32 s = (regRead o s).map (fun w => (.word w, s)) ∧
    accessAt .reg o (.write32 v) s = (regWrite o v s).map (fun t => (.written, t)) ∧
    accessAt .reg o .read8 s = none ∧ accessAt .reg o (.write8 b) s = none ∧ accessAt .reg o .otherWidth s = none

/-- Rule R72: the four buffer accesses in both phases, and BusError outside the space or at another width. An accepted write of
IN in phase IDLE changes that one byte and nothing else. -/
def Obligations.BufferAccessesByIndex : Prop :=
  ∀ (s : State) (i : Nat) (b : Byte) (v : Word),
    (i < s.params.inCap.toNat →
      accessAt .input i .read8 s = some (.byte (s.inBuf.read i), s) ∧
      (s.busy = true → accessAt .input i (.write8 b) s = some (.written, s)) ∧
      (s.busy = false → s.inBuf.wf = true →
        ∃ m, accessAt .input i (.write8 b) s = some (.written, { s with inBuf := m }) ∧ m.wf = true ∧
          ∀ a, m.read a = if a = i then b else s.inBuf.read a)) ∧
    (s.params.inCap.toNat ≤ i → accessAt .input i .read8 s = none ∧ accessAt .input i (.write8 b) s = none) ∧
    (i < s.params.outCap.toNat →
      (s.busy = false → accessAt .output i .read8 s = some (.byte (s.outBuf.read i), s)) ∧
      (s.busy = true →
        accessAt .output i .read8 s = some (.byte (Config.freeByte s.draws i), { s with draws := s.draws + 1 })) ∧
      accessAt .output i (.write8 b) s = some (.written, s)) ∧
    (s.params.outCap.toNat ≤ i → accessAt .output i .read8 s = none ∧ accessAt .output i (.write8 b) s = none) ∧
    accessAt .input i .read32 s = none ∧ accessAt .input i (.write32 v) s = none ∧
    accessAt .input i .otherWidth s = none ∧ accessAt .output i .read32 s = none ∧
    accessAt .output i (.write32 v) s = none ∧ accessAt .output i .otherWidth s = none

/-- Rule R75, with rule R306: an access is refused with a BusError exactly when it is one of those the rule lists, and the
refusal is a fault of the host's step. -/
def Obligations.BusErrorExactlyWhenRefused : Prop :=
  ∀ (a : Access) (s : State),
    (hostAccess a s = none ↔ accepted s.params a = false) ∧
    ∀ ts, s.turns = .host a :: ts →
      (accepted s.params a = false → step s = .fault .busError) ∧ (accepted s.params a = true → ∃ t, step s = .next t)

/-- Rule R74: a write to a read-only register or to a byte of OUT completes and changes no state. -/
def Obligations.ReadOnlyWritesChangeNothing : Prop :=
  ∀ (s : State) (v : Word) (b : Byte),
    accessAt .reg 0x04 (.write32 v) s = some (.written, s) ∧ accessAt .reg 0x0C (.write32 v) s = some (.written, s) ∧
    accessAt .reg 0x10 (.write32 v) s = some (.written, s) ∧ accessAt .reg 0x14 (.write32 v) s = some (.written, s) ∧
    accessAt .reg 0x18 (.write32 v) s = some (.written, s) ∧
    ∀ i, i < s.params.outCap.toNat → accessAt .output i (.write8 b) s = some (.written, s)

/-- A read changes no state in phase IDLE, and in phase BUSY at most the number of the next draw, which is the model's own
(rules R73, R81 and R351). -/
def Obligations.ReadsHaveNoSideEffect : Prop :=
  ∀ (a : Access) (s t : State) (r : Reply), isRead a.op = true → hostAccess a s = some (r, t) →
    (s.busy = false → t = s) ∧ (t = s ∨ t = { s with draws := s.draws + 1 })

/-- No host access reads or writes KEY or IV (rule R42): blocks that differ in nothing else give the same reply and the same
state after it, each with its own KEY and IV. -/
def Obligations.HostAccessesDoNotSeeTheKey : Prop :=
  ∀ (a : Access) (s : State) (key iv : Block),
    hostAccess a { s with params := { s.params with key := key, iv := iv } } =
      (hostAccess a s).map fun r => (r.1, { r.2 with params := { s.params with key := key, iv := iv } })

/-- Rule R71: a bus address inside a window reaches that space at its offset, and one outside the three windows reaches
none. -/
def Obligations.BusAddressesReachTheirWindow : Prop :=
  ∀ p : Params, p.placed = true →
    (∀ (sp : Space) (a : Nat), spaceBase p sp ≤ a → a < spaceBase p sp + spaceSize p sp →
      locate p (.bus a) = some (sp, a - spaceBase p sp)) ∧
    ∀ a : Nat, (∀ sp : Space, a < spaceBase p sp ∨ spaceBase p sp + spaceSize p sp ≤ a) → locate p (.bus a) = none

/-- Rule R350: in phase BUSY a write to CMD, to IN_LEN or to a byte of IN completes without error and has no effect. -/
def Obligations.BusyWritesAreDropped : Prop :=
  ∀ s : State, s.busy = true →
    (∀ v, accessAt .reg 0x00 (.write32 v) s = some (.written, s) ∧
      accessAt .reg 0x08 (.write32 v) s = some (.written, s)) ∧
    ∀ i b, i < s.params.inCap.toNat → accessAt .input i (.write8 b) s = some (.written, s)

/-- Rule R351: what each read returns in phase BUSY; a read of OUT returns any value, drawn anew at each read. -/
def Obligations.BusyReadsReturn : Prop :=
  ∀ s : State, MachineInv s → s.busy = true →
    regRead 0x04 s = some 0x00000001 ∧ regRead 0x0C s = some 0 ∧ regRead 0x10 s = some 0 ∧
    regRead 0x00 s = some s.cmd ∧ regRead 0x08 s = some s.inLen ∧ regRead 0x14 s = some s.params.inCap ∧
    regRead 0x18 s = some s.params.outCap ∧
    (∀ i, i < s.params.inCap.toNat → accessAt .input i .read8 s = some (.byte (s.inBuf.read i), s)) ∧
    ∀ i, i < s.params.outCap.toNat →
      accessAt .output i .read8 s = some (.byte (Config.freeByte s.draws i), { s with draws := s.draws + 1 })

/-! ## Whole-machine rules -/

/-- No step changes KEY, IV, the capacities or the placement (rules R40, R42 and R342). -/
def Obligations.ConstantsNeverChange : Prop := ∀ s t : State, step s = .next t → t.params = s.params

/-- In every run from reset, whatever turns come, only four values of STATUS occur, BUSY excludes DONE and ERR, and ERR goes
with DONE. It is the sentence of rule R36 that the spec marks as its own derivation from rules R110 and R112. -/
def Obligations.OnlyFourStatusValuesOccur : Prop :=
  ∀ (ts : List Turn) (n : Nat) (t : State), Sys2Proof.core.run n (State.reset.withTurns ts) = .next t →
    (t.status = 0x0 ∨ t.status = 0x1 ∨ t.status = 0x2 ∨ t.status = 0x6) ∧
    (t.busy = true → t.done = false ∧ t.failed = false) ∧ (t.failed = true → t.done = true)

/-- A byte of IN changes only by a reset or by an accepted write of that byte in phase IDLE, which leaves the byte written
(rules R43, R72, R341 and R350). -/
def Obligations.InputBytesChangeOnlyWhenWritten : Prop :=
  ∀ (s t : State) (i : Nat), s.inBuf.wf = true → step s = .next t → t.inBuf.read i ≠ s.inBuf.read i →
    (∃ ts, s.turns = .reset :: ts) ∨
    (s.busy = false ∧ i < s.params.inCap.toNat ∧
      ∃ a b ts, s.turns = .host a :: ts ∧ locate s.params a.target = some (.input, i) ∧ a.op = .write8 b ∧
        t.inBuf.read i = b)

/-- OUT changes only by a reset or by the command step (rules R44 and R74). -/
def Obligations.OutputChangesOnlyAtTheCommandStep : Prop :=
  ∀ s t : State, step s = .next t → t.outBuf ≠ s.outBuf →
    (∃ ts, s.turns = .reset :: ts) ∨
    (s.busy = true ∧ t.busy = false ∧
      ∃ ts, (s.turns = [] ∧ ts = [] ∨ s.turns = .engine :: ts) ∧ engineStep (s.withTurns ts) = .next t)

/-- A started command ends (rule R353, and rule R85, the spec's own derivation; the turns are the model's, log entry 4): when no turn to come is refused by the bus, phase BUSY is over after finitely many
steps, at most one for each turn to come and one of the engine's own. -/
def Obligations.StartedCommandsEnd : Prop :=
  ∀ s : State, s.busy = true → (∀ x ∈ s.turns, turnAccepted s.params x = true) →
    ∃ n t, 1 ≤ n ∧ n ≤ s.turns.length + 1 ∧ Sys2Proof.core.run n s = .next t ∧ t.busy = false

/-- The host cannot disturb a started command (rules R85 and R88, both of which the spec marks as its own derivations; that the
engine acts when the list of accesses is used up is the model's choice, log entry 4): whatever accepted accesses come between the CMD write and
the command step, the command shows what it would have shown at once, on the input that stood at the CMD write. -/
def Obligations.HostAccessesDoNotDisturbACommand : Prop :=
  ∀ (s : State) (accesses : List Access), s.busy = true → (∀ a ∈ accesses, accepted s.params a = true) →
    ∃ t u, Sys2Proof.core.run (accesses.length + 1) (s.withTurns (accesses.map Turn.host)) = .next t ∧
      engineStep s = .next u ∧ observe t = observe u ∧ t.cmd = u.cmd ∧ t.inLen = u.inLen ∧ t.inBuf = u.inBuf

/-- The host's order for one command (rule R344; that the command step is step `n + 3`, because the list holds the host's writes
alone and the engine acts on an empty one, is the model's choice, log entry 4): write the input bytes, write IN_LEN, write CMD; the command step then shows
the outcome of that command on those bytes. -/
def Obligations.HostOrderRunsOneCommand : Prop :=
  ∀ (s : State) (i : Instr) (x : List Byte), s.busy = false → s.inBuf.wf = true → x.length ≤ s.params.inCap.toNat →
    ∃ t, Sys2Proof.core.run (x.length + 3) (s.withTurns ((writeInAccesses 0 x ++
        [writeRegAccess .inLen (BitVec.ofNat 32 x.length), writeRegAccess .cmd (encode i)]).map Turn.host)) = .next t ∧
      t.busy = false ∧ t.cmd = encode i ∧ t.inLen.toNat = x.length ∧ t.input = x ∧
      (∀ e, codecByOp s.params i.op.toNat x = .err e → t.status = 0x6 ∧ t.outLen = 0 ∧ t.errCause = e.code) ∧
      ∀ y, codecByOp s.params i.op.toNat x = .ok y →
        (y.length ≤ outRoom s → t.status = 0x2 ∧ t.errCause = 0 ∧ t.result = y ∧ t.outLen.toNat = y.length) ∧
        (outRoom s < y.length → t.status = 0x6 ∧ t.outLen = 0 ∧ t.errCause = 0x00000204)
end

