-- ==== Sys2Proof/Laws/State.lean ====
section
/-! SUPPORT. What each update of the state leaves in each field, one lemma for each. -/

namespace Sys2Proof.Machine

/-! ## completion with a result (rule R112) -/

@[simp] theorem deliver_cmd (s : State) (y : List Byte) : (s.deliver y).cmd = s.cmd := rfl
@[simp] theorem deliver_status (s : State) (y : List Byte) : (s.deliver y).status = statusDone := rfl
@[simp] theorem deliver_inLen (s : State) (y : List Byte) : (s.deliver y).inLen = s.inLen := rfl
@[simp] theorem deliver_outLen (s : State) (y : List Byte) : (s.deliver y).outLen = BitVec.ofNat 32 y.length := rfl
@[simp] theorem deliver_errCause (s : State) (y : List Byte) : (s.deliver y).errCause = 0 := rfl
@[simp] theorem deliver_inBuf (s : State) (y : List Byte) : (s.deliver y).inBuf = s.inBuf := rfl
@[simp] theorem deliver_outBuf (s : State) (y : List Byte) : (s.deliver y).outBuf = Memory.holding s.draws y := rfl
@[simp] theorem deliver_params (s : State) (y : List Byte) : (s.deliver y).params = s.params := rfl
@[simp] theorem deliver_draws (s : State) (y : List Byte) : (s.deliver y).draws = s.draws + 1 := rfl
@[simp] theorem deliver_turns (s : State) (y : List Byte) : (s.deliver y).turns = s.turns := rfl
@[simp] theorem deliver_replies (s : State) (y : List Byte) : (s.deliver y).replies = s.replies := rfl

/-! ## completion with an error (rules R112 and R304) -/

@[simp] theorem reportError_cmd (s : State) (e : CommandError) : (s.reportError e).cmd = s.cmd := rfl
@[simp] theorem reportError_status (s : State) (e : CommandError) : (s.reportError e).status = statusFailed := rfl
@[simp] theorem reportError_inLen (s : State) (e : CommandError) : (s.reportError e).inLen = s.inLen := rfl
@[simp] theorem reportError_outLen (s : State) (e : CommandError) : (s.reportError e).outLen = 0 := rfl
@[simp] theorem reportError_errCause (s : State) (e : CommandError) : (s.reportError e).errCause = e.code := rfl
@[simp] theorem reportError_inBuf (s : State) (e : CommandError) : (s.reportError e).inBuf = s.inBuf := rfl
@[simp] theorem reportError_outBuf (s : State) (e : CommandError) : (s.reportError e).outBuf = Memory.drawn s.draws := rfl
@[simp] theorem reportError_params (s : State) (e : CommandError) : (s.reportError e).params = s.params := rfl
@[simp] theorem reportError_draws (s : State) (e : CommandError) : (s.reportError e).draws = s.draws + 1 := rfl
@[simp] theorem reportError_turns (s : State) (e : CommandError) : (s.reportError e).turns = s.turns := rfl
@[simp] theorem reportError_replies (s : State) (e : CommandError) : (s.reportError e).replies = s.replies := rfl

/-! ## a reply to the host -/

@[simp] theorem record_cmd (s : State) (r : Reply) : (s.record r).cmd = s.cmd := rfl
@[simp] theorem record_status (s : State) (r : Reply) : (s.record r).status = s.status := rfl
@[simp] theorem record_inLen (s : State) (r : Reply) : (s.record r).inLen = s.inLen := rfl
@[simp] theorem record_outLen (s : State) (r : Reply) : (s.record r).outLen = s.outLen := rfl
@[simp] theorem record_errCause (s : State) (r : Reply) : (s.record r).errCause = s.errCause := rfl
@[simp] theorem record_inBuf (s : State) (r : Reply) : (s.record r).inBuf = s.inBuf := rfl
@[simp] theorem record_outBuf (s : State) (r : Reply) : (s.record r).outBuf = s.outBuf := rfl
@[simp] theorem record_params (s : State) (r : Reply) : (s.record r).params = s.params := rfl
@[simp] theorem record_draws (s : State) (r : Reply) : (s.record r).draws = s.draws := rfl
@[simp] theorem record_turns (s : State) (r : Reply) : (s.record r).turns = s.turns := rfl
@[simp] theorem record_replies (s : State) (r : Reply) : (s.record r).replies = r :: s.replies := rfl

/-! ## other turns to come -/

@[simp] theorem withTurns_cmd (s : State) (ts : List Turn) : (s.withTurns ts).cmd = s.cmd := rfl
@[simp] theorem withTurns_status (s : State) (ts : List Turn) : (s.withTurns ts).status = s.status := rfl
@[simp] theorem withTurns_inLen (s : State) (ts : List Turn) : (s.withTurns ts).inLen = s.inLen := rfl
@[simp] theorem withTurns_outLen (s : State) (ts : List Turn) : (s.withTurns ts).outLen = s.outLen := rfl
@[simp] theorem withTurns_errCause (s : State) (ts : List Turn) : (s.withTurns ts).errCause = s.errCause := rfl
@[simp] theorem withTurns_inBuf (s : State) (ts : List Turn) : (s.withTurns ts).inBuf = s.inBuf := rfl
@[simp] theorem withTurns_outBuf (s : State) (ts : List Turn) : (s.withTurns ts).outBuf = s.outBuf := rfl
@[simp] theorem withTurns_params (s : State) (ts : List Turn) : (s.withTurns ts).params = s.params := rfl
@[simp] theorem withTurns_draws (s : State) (ts : List Turn) : (s.withTurns ts).draws = s.draws := rfl
@[simp] theorem withTurns_turns (s : State) (ts : List Turn) : (s.withTurns ts).turns = ts := rfl
@[simp] theorem withTurns_replies (s : State) (ts : List Turn) : (s.withTurns ts).replies = s.replies := rfl

/-! ## the reset line (rules R340 to R343) -/

@[simp] theorem resetBlock_cmd (s : State) : s.resetBlock.cmd = 0 := rfl
@[simp] theorem resetBlock_status (s : State) : s.resetBlock.status = 0 := rfl
@[simp] theorem resetBlock_inLen (s : State) : s.resetBlock.inLen = 0 := rfl
@[simp] theorem resetBlock_outLen (s : State) : s.resetBlock.outLen = 0 := rfl
@[simp] theorem resetBlock_errCause (s : State) : s.resetBlock.errCause = 0 := rfl
@[simp] theorem resetBlock_inBuf (s : State) : s.resetBlock.inBuf = Memory.drawn s.draws := rfl
@[simp] theorem resetBlock_outBuf (s : State) : s.resetBlock.outBuf = Memory.drawn (s.draws + 1) := rfl
@[simp] theorem resetBlock_params (s : State) : s.resetBlock.params = s.params := rfl
@[simp] theorem resetBlock_draws (s : State) : s.resetBlock.draws = s.draws + 2 := rfl
@[simp] theorem resetBlock_turns (s : State) : s.resetBlock.turns = s.turns := rfl
@[simp] theorem resetBlock_replies (s : State) : s.resetBlock.replies = s.replies := rfl

/-! ## a placed command word (rule R110) -/

@[simp] theorem placeCommand_cmd (s : State) (v : Word) : (placeCommand v s).cmd = v := rfl
@[simp] theorem placeCommand_status (s : State) (v : Word) : (placeCommand v s).status = statusBusy := rfl
@[simp] theorem placeCommand_inLen (s : State) (v : Word) : (placeCommand v s).inLen = s.inLen := rfl
@[simp] theorem placeCommand_outLen (s : State) (v : Word) : (placeCommand v s).outLen = 0 := rfl
@[simp] theorem placeCommand_errCause (s : State) (v : Word) : (placeCommand v s).errCause = 0 := rfl
@[simp] theorem placeCommand_inBuf (s : State) (v : Word) : (placeCommand v s).inBuf = s.inBuf := rfl
@[simp] theorem placeCommand_outBuf (s : State) (v : Word) : (placeCommand v s).outBuf = s.outBuf := rfl
@[simp] theorem placeCommand_params (s : State) (v : Word) : (placeCommand v s).params = s.params := rfl
@[simp] theorem placeCommand_draws (s : State) (v : Word) : (placeCommand v s).draws = s.draws := rfl
@[simp] theorem placeCommand_turns (s : State) (v : Word) : (placeCommand v s).turns = engineFirst s.turns := rfl
@[simp] theorem placeCommand_replies (s : State) (v : Word) : (placeCommand v s).replies = s.replies := rfl

/-! ## A write to CMD (rule R110) -/

theorem startCommand_of_busy (s : State) (v : Word) (h : s.busy = true) : s.startCommand v = s := by
  simp [State.startCommand, h]

theorem startCommand_of_idle (s : State) (v : Word) (h : s.busy = false) :
    s.startCommand v = { s with cmd := v, outLen := 0, errCause := 0, status := statusBusy } := by
  simp [State.startCommand, h]

@[simp] theorem startCommand_inLen (s : State) (v : Word) : (s.startCommand v).inLen = s.inLen := by
  simp only [State.startCommand]; split <;> rfl
@[simp] theorem startCommand_inBuf (s : State) (v : Word) : (s.startCommand v).inBuf = s.inBuf := by
  simp only [State.startCommand]; split <;> rfl
@[simp] theorem startCommand_outBuf (s : State) (v : Word) : (s.startCommand v).outBuf = s.outBuf := by
  simp only [State.startCommand]; split <;> rfl
@[simp] theorem startCommand_params (s : State) (v : Word) : (s.startCommand v).params = s.params := by
  simp only [State.startCommand]; split <;> rfl
@[simp] theorem startCommand_draws (s : State) (v : Word) : (s.startCommand v).draws = s.draws := by
  simp only [State.startCommand]; split <;> rfl
@[simp] theorem startCommand_turns (s : State) (v : Word) : (s.startCommand v).turns = s.turns := by
  simp only [State.startCommand]; split <;> rfl
@[simp] theorem startCommand_replies (s : State) (v : Word) : (s.startCommand v).replies = s.replies := by
  simp only [State.startCommand]; split <;> rfl

/-! ## A write to IN_LEN (rules R37 and R350) -/

theorem writeInLen_of_busy (s : State) (v : Word) (h : s.busy = true) : s.writeInLen v = s := by
  simp [State.writeInLen, h]

theorem writeInLen_of_idle (s : State) (v : Word) (h : s.busy = false) : s.writeInLen v = { s with inLen := v } := by
  simp [State.writeInLen, h]

@[simp] theorem writeInLen_cmd (s : State) (v : Word) : (s.writeInLen v).cmd = s.cmd := by
  simp only [State.writeInLen]; split <;> rfl
@[simp] theorem writeInLen_status (s : State) (v : Word) : (s.writeInLen v).status = s.status := by
  simp only [State.writeInLen]; split <;> rfl
@[simp] theorem writeInLen_outLen (s : State) (v : Word) : (s.writeInLen v).outLen = s.outLen := by
  simp only [State.writeInLen]; split <;> rfl
@[simp] theorem writeInLen_errCause (s : State) (v : Word) : (s.writeInLen v).errCause = s.errCause := by
  simp only [State.writeInLen]; split <;> rfl
@[simp] theorem writeInLen_inBuf (s : State) (v : Word) : (s.writeInLen v).inBuf = s.inBuf := by
  simp only [State.writeInLen]; split <;> rfl
@[simp] theorem writeInLen_outBuf (s : State) (v : Word) : (s.writeInLen v).outBuf = s.outBuf := by
  simp only [State.writeInLen]; split <;> rfl
@[simp] theorem writeInLen_params (s : State) (v : Word) : (s.writeInLen v).params = s.params := by
  simp only [State.writeInLen]; split <;> rfl
@[simp] theorem writeInLen_draws (s : State) (v : Word) : (s.writeInLen v).draws = s.draws := by
  simp only [State.writeInLen]; split <;> rfl
@[simp] theorem writeInLen_turns (s : State) (v : Word) : (s.writeInLen v).turns = s.turns := by
  simp only [State.writeInLen]; split <;> rfl
@[simp] theorem writeInLen_replies (s : State) (v : Word) : (s.writeInLen v).replies = s.replies := by
  simp only [State.writeInLen]; split <;> rfl

/-! ## BUSY after each update (rules R36, R110 and R112) -/

@[simp] theorem deliver_busy (s : State) (y : List Byte) : (s.deliver y).busy = false := by
  simp [State.busy, statusDone]

@[simp] theorem reportError_busy (s : State) (e : CommandError) : (s.reportError e).busy = false := by
  simp [State.busy, statusFailed]

@[simp] theorem record_busy (s : State) (r : Reply) : (s.record r).busy = s.busy := rfl

@[simp] theorem withTurns_busy (s : State) (ts : List Turn) : (s.withTurns ts).busy = s.busy := rfl

@[simp] theorem resetBlock_busy (s : State) : s.resetBlock.busy = false := by
  simp [State.busy]

@[simp] theorem placeCommand_busy (s : State) (v : Word) : (placeCommand v s).busy = true := by
  simp [State.busy, statusBusy]

@[simp] theorem startCommand_busy (s : State) (v : Word) : (s.startCommand v).busy = true := by
  simp only [State.startCommand]
  split
  · assumption
  · simp [State.busy, statusBusy]

@[simp] theorem writeInLen_busy (s : State) (v : Word) : (s.writeInLen v).busy = s.busy := by
  simp [State.busy]

@[simp] theorem withTurns_withTurns (s : State) (ts us : List Turn) : (s.withTurns ts).withTurns us = s.withTurns us := rfl

@[simp] theorem withTurns_self (s : State) : s.withTurns s.turns = s := rfl

@[simp] theorem withTurns_input (s : State) (ts : List Turn) : (s.withTurns ts).input = s.input := rfl

@[simp] theorem withTurns_result (s : State) (ts : List Turn) : (s.withTurns ts).result = s.result := rfl

@[simp] theorem record_input (s : State) (r : Reply) : (s.record r).input = s.input := rfl

@[simp] theorem record_result (s : State) (r : Reply) : (s.record r).result = s.result := rfl

end Sys2Proof.Machine
end

