-- ==== Sys2Proof/Laws/Memory.lean ====
section
/-! SUPPORT. The laws of the buffers: reading after a write, reading a held sequence, and the canonical form, which every
operation keeps and which makes equal buffers equal data. -/

namespace Sys2Proof.Machine

/-! ## The fields of a new buffer -/

@[simp] theorem Memory.drawn_cells (d : Nat) : (Memory.drawn d).cells = [] := rfl

@[simp] theorem Memory.drawn_draw (d : Nat) : (Memory.drawn d).draw = d := rfl

@[simp] theorem Memory.holding_cells (d : Nat) (y : List Byte) : (Memory.holding d y).cells = cellsFrom 0 y := rfl

@[simp] theorem Memory.holding_draw (d : Nat) (y : List Byte) : (Memory.holding d y).draw = d := rfl

@[simp] theorem Memory.write_draw (m : Memory) (i : Nat) (b : Byte) : (m.write i b).draw = m.draw := rfl

/-! ## Looking up -/

theorem cellsLookup_insert (i j : Nat) (b : Byte) (cs : List Host.Cell) (h : cellsRising cs = true) :
    cellsLookup j (cellsInsert i b cs) = if j = i then some b else cellsLookup j cs := by
  induction cs with
  | nil => simp [cellsInsert, cellsLookup, eq_comm]
  | cons c cs ih =>
    have ht : cellsRising cs = true := by
      cases cs with
      | nil => rfl
      | cons d ds => simp only [cellsRising, Bool.and_eq_true] at h; exact h.2
    simp only [cellsInsert]
    split
    · simp only [cellsLookup, eq_comm]
    · split
      · subst i
        by_cases hj : j = c.1
        · simp [cellsLookup, hj]
        · simp [cellsLookup, hj, Ne.symm hj]
      · simp only [cellsLookup, ih ht]
        by_cases hj : j = i
        · subst j
          simp [show ¬ c.1 = i by omega]
        · simp [hj]

theorem cellsLookup_from (i k : Nat) (y : List Byte) : cellsLookup (i + k) (cellsFrom i y) = y[k]? := by
  induction y generalizing i k with
  | nil => simp [cellsFrom, cellsLookup]
  | cons b bs ih =>
    cases k with
    | zero => simp [cellsFrom, cellsLookup]
    | succ k =>
      simp only [cellsFrom, cellsLookup, List.getElem?_cons_succ]
      rw [if_neg (by omega), show i + (k + 1) = i + 1 + k by omega, ih]

/-! ## The canonical form -/

/-- Every cell of a rising list lies above a bound that lies below its first cell. -/
theorem cellsRising_cons (c : Host.Cell) (cs : List Host.Cell) :
    cellsRising (c :: cs) = true ↔ (∀ d ∈ cs, c.1 < d.1) ∧ cellsRising cs = true := by
  induction cs generalizing c with
  | nil => simp [cellsRising]
  | cons d ds ih =>
    constructor
    · intro h
      simp only [cellsRising, Bool.and_eq_true, decide_eq_true_eq] at h
      refine ⟨?_, h.2⟩
      intro e he
      rcases List.mem_cons.mp he with rfl | he
      · exact h.1
      · exact lt_trans h.1 (((ih d).mp h.2).1 e he)
    · rintro ⟨h1, h2⟩
      simp only [cellsRising, Bool.and_eq_true, decide_eq_true_eq]
      exact ⟨h1 d (List.mem_cons_self ..), h2⟩

theorem mem_cellsInsert {i : Nat} {b : Byte} {c : Host.Cell} {cs : List Host.Cell} (h : c ∈ cellsInsert i b cs) :
    c = (i, b) ∨ c ∈ cs := by
  induction cs with
  | nil => simpa [cellsInsert] using h
  | cons d ds ih =>
    simp only [cellsInsert] at h
    split at h
    · simpa using h
    · split at h
      · rcases List.mem_cons.mp h with h | h
        · exact .inl h
        · exact .inr (List.mem_cons_of_mem _ h)
      · rcases List.mem_cons.mp h with h | h
        · exact .inr (h ▸ List.mem_cons_self ..)
        · exact (ih h).imp_right (List.mem_cons_of_mem _)

theorem cellsRising_insert (i : Nat) (b : Byte) (cs : List Host.Cell) (h : cellsRising cs = true) :
    cellsRising (cellsInsert i b cs) = true := by
  induction cs with
  | nil => rfl
  | cons c cs ih =>
    obtain ⟨h1, h2⟩ := (cellsRising_cons c cs).mp h
    simp only [cellsInsert]
    split
    · rename_i hlt
      refine (cellsRising_cons _ _).mpr ⟨?_, h⟩
      intro d hd
      rcases List.mem_cons.mp hd with rfl | hd
      · exact hlt
      · exact lt_trans hlt (h1 d hd)
    · split
      · rename_i _ he
        subst he
        exact (cellsRising_cons _ _).mpr ⟨h1, h2⟩
      · refine (cellsRising_cons _ _).mpr ⟨?_, ih h2⟩
        intro d hd
        rcases mem_cellsInsert hd with rfl | hd
        · simp only; omega
        · exact h1 d hd

theorem le_of_mem_cellsFrom {i : Nat} {y : List Byte} {c : Host.Cell} (h : c ∈ cellsFrom i y) :
    i ≤ c.1 ∧ c.1 < i + y.length := by
  induction y generalizing i with
  | nil => simp [cellsFrom] at h
  | cons b bs ih =>
    simp only [cellsFrom, List.mem_cons, List.length_cons] at h ⊢
    rcases h with rfl | h
    · simp only; omega
    · have := ih h; omega

theorem cellsRising_from (i : Nat) (y : List Byte) : cellsRising (cellsFrom i y) = true := by
  induction y generalizing i with
  | nil => rfl
  | cons b bs ih =>
    exact (cellsRising_cons _ _).mpr ⟨fun d hd => (le_of_mem_cellsFrom hd).1, ih (i + 1)⟩

/-- A write keeps the canonical form. -/
theorem Memory.wf_write (m : Memory) (i : Nat) (b : Byte) (h : m.wf = true) : (m.write i b).wf = true :=
  cellsRising_insert i b m.cells h

/-- A drawn buffer has the canonical form. -/
@[simp] theorem Memory.wf_drawn (d : Nat) : (Memory.drawn d).wf = true := rfl

/-- A buffer that holds a result has the canonical form. -/
@[simp] theorem Memory.wf_holding (d : Nat) (y : List Byte) : (Memory.holding d y).wf = true := cellsRising_from 0 y

/-- The buffers of the reset state have the canonical form. -/
theorem reset_wf : State.reset.inBuf.wf = true ∧ State.reset.outBuf.wf = true := ⟨rfl, rfl⟩

/-- Two canonical lists of cells that answer every look-up alike are equal. -/
theorem cells_ext {cs ds : List Host.Cell} (hc : cellsRising cs = true) (hd : cellsRising ds = true)
    (h : ∀ i, cellsLookup i cs = cellsLookup i ds) : cs = ds := by
  have below : ∀ (es : List Host.Cell) (i : Nat), (∀ e ∈ es, i < e.1) → cellsLookup i es = none := by
    intro es i he
    induction es with
    | nil => rfl
    | cons e es ih =>
      have := he e (List.mem_cons_self ..)
      simp only [cellsLookup]
      rw [if_neg (by omega), ih fun e' h' => he e' (List.mem_cons_of_mem _ h')]
  induction cs generalizing ds with
  | nil =>
    cases ds with
    | nil => rfl
    | cons d ds => simpa [cellsLookup] using h d.1
  | cons c cs ih =>
    cases ds with
    | nil => simpa [cellsLookup] using h c.1
    | cons d ds =>
      obtain ⟨c1, c2⟩ := (cellsRising_cons c cs).mp hc
      obtain ⟨d1, d2⟩ := (cellsRising_cons d ds).mp hd
      have heq : c.1 = d.1 := by
        rcases lt_trichotomy c.1 d.1 with hlt | heq | hgt
        · have hx := h c.1
          simp only [cellsLookup, if_pos] at hx
          rw [if_neg (by omega), below ds c.1 fun e he => lt_trans hlt (d1 e he)] at hx
          simp at hx
        · exact heq
        · have hx := h d.1
          simp only [cellsLookup, if_pos] at hx
          rw [if_neg (by omega), below cs d.1 fun e he => lt_trans hgt (c1 e he)] at hx
          simp at hx
      have hval : c.2 = d.2 := by
        have hx := h c.1
        simp only [cellsLookup, heq, if_pos] at hx
        simpa using hx
      have htail : cs = ds := by
        refine ih c2 d2 fun i => ?_
        by_cases hi : i = c.1
        · subst hi
          rw [below cs c.1 c1, below ds c.1 (heq ▸ d1)]
        · have hx := h i
          simp only [cellsLookup] at hx
          rwa [if_neg (Ne.symm hi), if_neg (heq ▸ Ne.symm hi)] at hx
      rw [htail, Prod.ext heq hval]

/-- Canonical buffers of one draw with the same stored bytes are equal data. -/
theorem Memory.ext_of_wf {m n : Memory} (hm : m.wf = true) (hn : n.wf = true) (hd : m.draw = n.draw)
    (h : ∀ i, m.stored i = n.stored i) : m = n := by
  cases m
  cases n
  simp only [Memory.mk.injEq]
  exact ⟨cells_ext hm hn h, hd⟩

/-! ## Reading -/

theorem Memory.stored_write (m : Memory) (i j : Nat) (b : Byte) (h : m.wf = true) :
    (m.write i b).stored j = if j = i then some b else m.stored j :=
  cellsLookup_insert i j b m.cells h

/-- A read after a write: the written byte at its index, and every other byte as before. -/
theorem Memory.read_write (m : Memory) (i j : Nat) (b : Byte) (h : m.wf = true) :
    (m.write i b).read j = if j = i then b else m.read j := by
  unfold Memory.read
  rw [Memory.stored_write m i j b h]
  by_cases hj : j = i
  · simp [hj]
  · simp [hj, Memory.write]

theorem Memory.stored_holding (d k : Nat) (y : List Byte) : (Memory.holding d y).stored k = y[k]? := by
  simpa [Memory.stored, Memory.holding] using cellsLookup_from 0 k y

/-- A drawn buffer reads as the draw everywhere. -/
@[simp] theorem Memory.read_drawn (d i : Nat) : (Memory.drawn d).read i = Config.freeByte d i := rfl

theorem Memory.read_holding_lt (d k : Nat) (y : List Byte) (h : k < y.length) : (Memory.holding d y).read k = y[k] := by
  simp [Memory.read, Memory.stored_holding, h]

theorem Memory.read_holding_ge (d k : Nat) (y : List Byte) (h : y.length ≤ k) :
    (Memory.holding d y).read k = Config.freeByte d k := by
  rw [Memory.read, Memory.stored_holding, List.getElem?_eq_none h]
  rfl

@[simp] theorem Memory.length_bytes (m : Memory) (i n : Nat) : (m.bytes i n).length = n := by
  simp [Memory.bytes]

theorem Memory.getElem_bytes (m : Memory) (i n k : Nat) (h : k < n) :
    (m.bytes i n)[k]'(by simpa using h) = m.read (i + k) := by
  simp [Memory.bytes]

/-- The bytes from index 0 of a buffer that holds `y` are `y`. -/
theorem Memory.bytes_holding (d : Nat) (y : List Byte) : (Memory.holding d y).bytes 0 y.length = y := by
  apply List.ext_getElem (by simp)
  intro k h1 h2
  simp [Memory.bytes, Memory.read_holding_lt d k y h2]

/-- The input operand has IN_LEN bytes (rule R37). -/
@[simp] theorem length_input (s : State) : s.input.length = s.inLen.toNat := Memory.length_bytes ..

/-- The result has OUT_LEN bytes (rule R38). -/
@[simp] theorem length_result (s : State) : s.result.length = s.outLen.toNat := Memory.length_bytes ..

end Sys2Proof.Machine
end

