-- ==== Sys2Proof/Laws/Ops.lean ====
section
/-! SUPPORT. What each shared operation can do, said once: a command's outcome and completion (rules R111 and R112), and a host
access (rules R72 to R75). -/

namespace Sys2Proof.Machine

/-! ## Commands -/

/-- A command step always answers a next state: the completion with the command's outcome. -/
@[simp] theorem runCommand_eq (f : List Byte → Result) (s : State) :
    runCommand f s = .next (s.complete (s.outcome f)) := rfl

@[simp] theorem complete_ok (s : State) (y : List Byte) : s.complete (.ok y) = s.deliver y := rfl

@[simp] theorem complete_err (s : State) (e : CommandError) : s.complete (.err e) = s.reportError e := rfl

/-- The one meaning of the eight arms: completion with the outcome of the codec that the command's OP names. -/
theorem exec_eq (i : Instr) (s : State) :
    exec i s = .next (s.complete (s.outcome (codecByOp s.params i.op.toNat))) := by
  cases i <;> rfl

theorem outcome_over (s : State) (f : List Byte → Result) (h : s.params.inCap.toNat < s.inLen.toNat) :
    s.outcome f = .err .inputOverCap := by
  simp [State.outcome, h]

theorem outcome_err (s : State) (f : List Byte → Result) (e : CommandError) (h : InputFits s) (hf : f s.input = .err e) :
    s.outcome f = .err e := by
  simp [State.outcome, hf, Nat.not_lt.mpr h]

theorem outcome_ok (s : State) (f : List Byte → Result) (y : List Byte) (h : InputFits s) (hf : f s.input = .ok y) :
    s.outcome f = if outRoom s < y.length then .err .resultOverCap else .ok y := by
  unfold State.outcome
  rw [if_neg (Nat.not_lt.mpr h), hf]
  rfl

/-- Whatever its codec, a delivered result fits in OUT. -/
theorem length_of_outcome_ok {s : State} {f : List Byte → Result} {y : List Byte} (h : s.outcome f = .ok y) :
    y.length ≤ outRoom s := by
  unfold State.outcome at h
  split at h
  · cases h
  · split at h
    · split at h
      · cases h
      · simp only [Result.ok.injEq] at h
        subst h
        exact Nat.not_lt.mp ‹_›
    · cases h

/-- Completion keeps the frame of rule R112. -/
theorem complete_frame (s : State) (r : Result) : CommandFrame s (s.complete r) := by
  cases r <;> exact ⟨rfl, rfl, fun _ => rfl, rfl, rfl, rfl⟩

theorem deliver_delivers (s : State) (y : List Byte) (h : y.length < 2 ^ 32) : DeliversResult s (s.deliver y) y := by
  have hl : (BitVec.ofNat 32 y.length).toNat = y.length := by
    simpa using Nat.mod_eq_of_lt h
  refine ⟨rfl, hl, rfl, ?_, complete_frame s (.ok y)⟩
  show (Memory.holding s.draws y).bytes 0 (BitVec.ofNat 32 y.length).toNat = y
  rw [hl, Memory.bytes_holding]

theorem reportError_reports (s : State) (e : CommandError) : ReportsError s (s.reportError e) e.code :=
  ⟨rfl, rfl, rfl, complete_frame s (.err e)⟩

/-- A completed command shows its outcome. -/
theorem complete_shows (s : State) (f : List Byte → Result) : ShowsOutcome s (s.complete (s.outcome f)) (s.outcome f) := by
  cases h : s.outcome f with
  | ok y => exact deliver_delivers s y (lt_of_le_of_lt (length_of_outcome_ok h) s.params.outCap.isLt)
  | err e => exact reportError_reports s e

/-- A command whose codec succeeds with a result that fits in OUT delivers it. -/
theorem exec_delivers {i : Instr} {s : State} {y : List Byte} (h : InputFits s)
    (hf : codecByOp s.params i.op.toNat s.input = .ok y) (hl : y.length ≤ outRoom s) :
    ∃ t, exec i s = .next t ∧ DeliversResult s t y := by
  refine ⟨s.deliver y, ?_, deliver_delivers s y (lt_of_le_of_lt hl s.params.outCap.isLt)⟩
  rw [exec_eq, outcome_ok s _ y h hf, if_neg (Nat.not_lt.mpr hl), complete_ok]

/-- A command whose codec succeeds with a result that does not fit in OUT reports CapacityError 2. -/
theorem exec_overflows {i : Instr} {s : State} {y : List Byte} (h : InputFits s)
    (hf : codecByOp s.params i.op.toNat s.input = .ok y) (hl : outRoom s < y.length) :
    ∃ t, exec i s = .next t ∧ ReportsError s t CommandError.resultOverCap.code := by
  refine ⟨s.reportError .resultOverCap, ?_, reportError_reports s _⟩
  rw [exec_eq, outcome_ok s _ y h hf, if_pos hl, complete_err]

/-- A command whose codec fails reports the failed check. -/
theorem exec_reports {i : Instr} {s : State} {e : CommandError} (h : InputFits s)
    (hf : codecByOp s.params i.op.toNat s.input = .err e) :
    ∃ t, exec i s = .next t ∧ ReportsError s t e.code := by
  refine ⟨s.reportError e, ?_, reportError_reports s e⟩
  rw [exec_eq, outcome_err s _ e h hf, complete_err]

/-! ## Host accesses -/

theorem regAt_offset (r : Reg) : regAt (Reg.offset r) = some r := by
  cases r <;> rfl

/-- A register stands at an offset exactly when the offset is one of the map (rule R34). -/
theorem regAt_eq_some {o : Nat} {r : Reg} : regAt o = some r ↔ o = Reg.offset r := by
  constructor
  · intro h
    unfold regAt at h
    split at h <;> simp_all [Reg.offset]
    all_goals (subst h; rfl)
  · rintro rfl
    exact regAt_offset r

/-- Everything a host access can do when it is accepted: read without effect, draw a byte in phase BUSY, complete a write
that has no effect, start a command, or write IN_LEN or a byte of IN in phase IDLE. -/
theorem accessAt_cases {sp : Space} {o : Nat} {op : AccessOp} {s t : State} {r : Reply}
    (h : accessAt sp o op s = some (r, t)) :
    t = s ∨
    (sp = .output ∧ op = .read8 ∧ s.busy = true ∧ r = .byte (Config.freeByte s.draws o) ∧ t = { s with draws := s.draws + 1 }) ∨
    (∃ v, sp = .reg ∧ o = 0x00 ∧ op = .write32 v ∧ s.busy = false ∧ r = .written ∧ t = s.startCommand v) ∨
    (∃ v, sp = .reg ∧ o = 0x08 ∧ op = .write32 v ∧ s.busy = false ∧ r = .written ∧ t = { s with inLen := v }) ∨
    (∃ b, sp = .input ∧ op = .write8 b ∧ s.busy = false ∧ o < s.params.inCap.toNat ∧ r = .written ∧
      t = { s with inBuf := s.inBuf.write o b }) := by
  cases sp <;> cases op <;> simp only [accessAt, reduceCtorEq, Option.map_eq_some_iff, Prod.mk.injEq] at h
  case reg.read32 => obtain ⟨w, -, -, rfl⟩ := h; exact .inl rfl
  case reg.write32 v =>
    obtain ⟨u, hu, rfl, rfl⟩ := h
    simp only [regWrite, Option.map_eq_some_iff] at hu
    obtain ⟨g, hg, rfl⟩ := hu
    rw [regAt_eq_some] at hg
    subst hg
    cases g
    case cmd =>
      cases hb : s.busy
      · exact .inr (.inr (.inl ⟨v, rfl, rfl, rfl, rfl, rfl, rfl⟩))
      · exact .inl (startCommand_of_busy s v hb)
    case inLen =>
      cases hb : s.busy
      · exact .inr (.inr (.inr (.inl ⟨v, rfl, rfl, rfl, rfl, rfl, writeInLen_of_idle s v hb⟩)))
      · exact .inl (writeInLen_of_busy s v hb)
    all_goals exact .inl rfl
  case input.read8 => obtain ⟨w, -, -, rfl⟩ := h; exact .inl rfl
  case input.write8 b =>
    obtain ⟨u, hu, rfl, rfl⟩ := h
    simp only [inWrite] at hu
    split at hu
    · rename_i hi
      simp only [Option.some.injEq] at hu
      cases hb : s.busy
      · exact .inr (.inr (.inr (.inr ⟨b, rfl, rfl, rfl, hi, rfl, by simp [← hu, hb]⟩)))
      · exact .inl (by simp [← hu, hb])
    · cases hu
  case output.read8 =>
    obtain ⟨u, hu, rfl, rfl⟩ := h
    simp only [outRead] at hu
    split at hu
    · split at hu
      · rename_i hb
        simp only [Option.some.injEq] at hu
        subst hu
        exact .inr (.inl ⟨rfl, rfl, hb, rfl, rfl⟩)
      · simp only [Option.some.injEq] at hu
        subst hu
        exact .inl rfl
    · cases hu
  case output.write8 b =>
    obtain ⟨u, hu, rfl, rfl⟩ := h
    simp only [outWrite] at hu
    split at hu
    · simp only [Option.some.injEq] at hu
      exact .inl hu.symm
    · cases hu

/-- An accepted access reaches a space, where it does what `accessAt_cases` says. -/
theorem hostAccess_eq_some {a : Access} {s t : State} {r : Reply} (h : hostAccess a s = some (r, t)) :
    ∃ sp o, locate s.params a.target = some (sp, o) ∧ accessAt sp o a.op s = some (r, t) := by
  unfold hostAccess at h
  split at h
  · rename_i sp o hl
    exact ⟨sp, o, hl, h⟩
  · cases h

/-- What no host access changes. -/
theorem hostAccess_frame {a : Access} {s t : State} {r : Reply} (h : hostAccess a s = some (r, t)) :
    t.params = s.params ∧ t.turns = s.turns ∧ t.replies = s.replies ∧ t.outBuf = s.outBuf := by
  obtain ⟨sp, o, -, h⟩ := hostAccess_eq_some h
  rcases accessAt_cases h with rfl | ⟨-, -, -, -, rfl⟩ | ⟨v, -, -, -, -, -, rfl⟩ | ⟨v, -, -, -, -, -, rfl⟩ |
    ⟨b, -, -, -, -, -, rfl⟩ <;> simp

/-- In phase BUSY a host access changes nothing but the number of draws. -/
theorem hostAccess_of_busy {a : Access} {s t : State} {r : Reply} (hb : s.busy = true) (h : hostAccess a s = some (r, t)) :
    t = s ∨ t = { s with draws := s.draws + 1 } := by
  obtain ⟨sp, o, -, h⟩ := hostAccess_eq_some h
  rcases accessAt_cases h with h | ⟨-, -, -, -, h⟩ | ⟨v, -, -, -, hn, -⟩ | ⟨v, -, -, -, hn, -⟩ | ⟨b, -, -, hn, -⟩
  · exact .inl h
  · exact .inr h
  all_goals (rw [hb] at hn; cases hn)

end Sys2Proof.Machine
end

