-- ==== Sys2Proof/Laws/Step.lean ====
section
/-! SUPPORT. Everything a step can do, said once. -/

namespace Sys2Proof.Machine

/-- The command step always answers a next state: the completion with some outcome that OUT can hold. -/
theorem engineStep_eq (s : State) :
    ∃ r : Result, engineStep s = .next (s.complete r) ∧ (∀ y, r = .ok y → y.length ≤ outRoom s ∧ ∃ i, decode s.cmd = .ok i) := by
  unfold engineStep
  cases hd : decode s.cmd with
  | ok i =>
    refine ⟨_, exec_eq i s, fun y hy => ⟨length_of_outcome_ok hy, i, rfl⟩⟩
  | error e => exact ⟨.err (illegalError e), rfl, fun y hy => by cases hy⟩

/-- Everything a step can do when it answers a next state: the engine completes a command, the engine's turn passes in phase
IDLE, a host access is performed and answered, or the reset line acts. -/
theorem step_cases {s t : State} (h : step s = .next t) :
    (∃ r ts, (s.turns = [] ∧ ts = [] ∨ s.turns = .engine :: ts) ∧ s.busy = true ∧ t = (s.withTurns ts).complete r ∧
      engineStep (s.withTurns ts) = .next t ∧
      ∀ y, r = .ok y → y.length ≤ outRoom s ∧ ∃ i, decode s.cmd = .ok i) ∨
    (∃ ts, (s.turns = [] ∧ ts = [] ∨ s.turns = .engine :: ts) ∧ s.busy = false ∧ t = s.withTurns ts) ∨
    (∃ a ts r u, s.turns = .host a :: ts ∧ hostAccess a (s.withTurns ts) = some (r, u) ∧ t = u.record r) ∨
    (∃ ts, s.turns = .reset :: ts ∧ t = (s.withTurns ts).resetBlock) := by
  have engine : ∀ ts, (s.turns = [] ∧ ts = [] ∨ s.turns = .engine :: ts) → engineTurn (s.withTurns ts) = .next t →
      (∃ r ts, (s.turns = [] ∧ ts = [] ∨ s.turns = .engine :: ts) ∧ s.busy = true ∧ t = (s.withTurns ts).complete r ∧
        engineStep (s.withTurns ts) = .next t ∧
        ∀ y, r = .ok y → y.length ≤ outRoom s ∧ ∃ i, decode s.cmd = .ok i) ∨
      (∃ ts, (s.turns = [] ∧ ts = [] ∨ s.turns = .engine :: ts) ∧ s.busy = false ∧ t = s.withTurns ts) := by
    intro ts hts he
    unfold engineTurn at he
    split at he
    · rename_i hb
      obtain ⟨r, hr, hy⟩ := engineStep_eq (s.withTurns ts)
      have ht : t = (s.withTurns ts).complete r := by
        rw [hr] at he
        exact (Host.Outcome.next.inj he).symm
      exact .inl ⟨r, ts, hts, hb, ht, he, hy⟩
    · rename_i hb
      exact .inr ⟨ts, hts, by simpa using hb, (Host.Outcome.next.inj he).symm⟩
  unfold step takeTurn at h
  split at h
  · rename_i hts
    have h' : engineTurn (s.withTurns []) = .next t := by rwa [← hts, withTurns_self]
    rcases engine [] (.inl ⟨hts, rfl⟩) h' with h | h
    · exact .inl h
    · exact .inr (.inl h)
  · rename_i ts hts
    rcases engine ts (.inr hts) h with h | h
    · exact .inl h
    · exact .inr (.inl h)
  · rename_i a ts hts
    unfold hostTurn at h
    split at h
    · rename_i r u hu
      exact .inr (.inr (.inl ⟨a, ts, r, u, hts, hu, (Host.Outcome.next.inj h).symm⟩))
    · cases h
  · rename_i ts hts
    exact .inr (.inr (.inr ⟨ts, hts, (Host.Outcome.next.inj h).symm⟩))

end Sys2Proof.Machine
end

