-- ==== Sys2Proof/Laws/HostRun.lean ====
section
/-! SUPPORT. What the events of a run are, and that the observation of a host program does not depend on how long the run is
followed (rule R345). -/

namespace Sys2Proof.Machine

@[simp] theorem progressAfter_quiet (p : Progress) : progressAfter p .quiet = p := rfl

@[simp] theorem progressAfter_started (p : Progress) : progressAfter p .started = { p with running := true } := rfl

@[simp] theorem progressAfter_ended (p : Progress) : progressAfter p .ended = { p with running := false } := rfl

@[simp] theorem commandsEnded_noCommandYet : commandsEnded noCommandYet = true := rfl

/-- A command that a reset abandoned never ends: no later event makes it ended. -/
theorem not_commandsEnded_of_abandoned {p : Progress} (h : p.abandoned ≠ 0) (e : CommandEvent) :
    (progressAfter p e).abandoned ≠ 0 ∧ commandsEnded (progressAfter p e) = false := by
  have key : (progressAfter p e).abandoned ≠ 0 := by
    cases e with
    | quiet => exact h
    | started => exact h
    | ended => exact h
    | abandoned =>
      simp only [progressAfter]
      split
      · exact Nat.succ_ne_zero _
      · exact h
  exact ⟨key, by simp [commandsEnded, key]⟩

/-- An accepted CMD write is a write of some word to CMD in phase IDLE. -/
theorem startsCommand_iff {a : Access} {s : State} :
    startsCommand a s = true ↔ s.busy = false ∧ locate s.params a.target = some (.reg, Reg.offset .cmd) ∧ ∃ v, a.op = .write32 v := by
  cases h : a.op <;> simp [startsCommand, isWrite32, h]

/-- A host access moves the phase exactly when it starts a command. -/
theorem hostAccess_busy {a : Access} {s t : State} {r : Reply} (h : hostAccess a s = some (r, t)) :
    t.busy = (s.busy || startsCommand a s) := by
  cases hs : startsCommand a s with
  | true =>
    obtain ⟨hb, hl, v, hv⟩ := startsCommand_iff.mp hs
    have ht : hostAccess a s = some (.written, s.startCommand v) := by
      simp only [hostAccess, hl, hv, accessAt, regWrite, regAt_offset, Option.map_some, State.writeReg]
    rw [ht] at h
    obtain ⟨-, rfl⟩ := Prod.mk.inj (Option.some.inj h)
    simp
  | false =>
    obtain ⟨sp, o, hl, ha⟩ := hostAccess_eq_some h
    rcases accessAt_cases ha with rfl | ⟨-, -, -, -, rfl⟩ | ⟨v, rfl, rfl, hop, hb, -, -⟩ | ⟨v, -, -, -, -, -, rfl⟩ |
      ⟨b, -, -, -, -, -, rfl⟩
    case inr.inr.inl =>
      have := startsCommand_iff.mpr ⟨hb, hl, v, hop⟩
      rw [hs] at this
      cases this
    all_goals simp [State.busy]

/-- What each event says of the step: a started command takes the phase from IDLE to BUSY, an ended one has had its command step,
an abandoned one a reset, and a quiet step keeps the phase. -/
theorem nextEvent_spec {s t : State} (h : step s = .next t) :
    match nextEvent s with
    | .quiet => t.busy = s.busy
    | .started => s.busy = false ∧ t.busy = true
    | .ended => s.busy = true ∧ t.busy = false ∧ ∃ ts, engineStep (s.withTurns ts) = .next t
    | .abandoned => s.busy = true ∧ t.busy = false ∧ ∃ ts, s.turns = .reset :: ts := by
  rcases step_cases h with ⟨r, ts, hts, hb, rfl, he, -⟩ | ⟨ts, hts, hb, rfl⟩ | ⟨a, ts, r, u, hts, ha, rfl⟩ | ⟨ts, hts, rfl⟩
  · have hn : nextEvent s = .ended := by
      rcases hts with ⟨h0, -⟩ | h0 <;> simp [nextEvent, h0, engineEvent, hb]
    rw [hn]
    exact ⟨hb, by cases r <;> simp, ts, he⟩
  · have hn : nextEvent s = .quiet := by
      rcases hts with ⟨h0, -⟩ | h0 <;> simp [nextEvent, h0, engineEvent, hb]
    rw [hn]
    rfl
  · have hb := hostAccess_busy ha
    have hs : startsCommand a (s.withTurns ts) = startsCommand a s := rfl
    rw [hs] at hb
    cases hc : startsCommand a s with
    | true =>
      simp only [nextEvent, hts, hc, if_true]
      exact ⟨(startsCommand_iff.mp hc).1, by simp [hb, hc]⟩
    | false => simp [nextEvent, hts, hc, hb]
  · cases hb : s.busy with
    | true =>
      simp only [nextEvent, hts, hb, if_true]
      exact ⟨trivial, by simp, ts, rfl⟩
    | false => simp [nextEvent, hts, hb]

/-- Once the program has ended, the observation is that of the state, however far the run is followed. -/
theorem observeRun_of_ended {s : State} {p : Progress} (h : programEnded s p = true) (fuel : Nat) :
    observeRun fuel s p = some (observe s) := by
  cases fuel <;> simp [observeRun, h]

/-- Following the run further does not change the observation. -/
theorem observeRun_add {fuel : Nat} {s : State} {p : Progress} {o : Observation} (h : observeRun fuel s p = some o) (k : Nat) :
    observeRun (fuel + k) s p = some o := by
  induction fuel generalizing s p with
  | zero =>
    unfold observeRun at h
    split at h
    · rename_i he; rw [observeRun_of_ended he]; exact h
    · cases h
  | succ fuel ih =>
    unfold observeRun at h
    split at h
    · rename_i he; rw [observeRun_of_ended he]; exact h
    · rename_i he
      rw [Nat.succ_add, observeRun, if_neg he]
      split at h
      · exact ih h
      · cases h
      · cases h

end Sys2Proof.Machine
end

