-- ==== Sys2Proof/Laws/PerInstr.lean ====
section
/-! SUPPORT. Facts made per command, one lemma for each constructor of `Instr`. -/

namespace Sys2Proof.Laws.EncodingRow

/-- The command is well formed, the fields of its CMD word are legal (rules R100 and R101), and the word is the row's number
of rule R101 with every other bit 0. -/
def Statement (i : Instr) : Prop :=
  i.wf = true ∧ (CommandWord.ofWord (encode i)).wf = true ∧ (encode i).toNat = i.op.toNat ∧ encodeLanes i = [i.op.setWidth 8, 0, 0, 0]

theorem envDecode : Statement .envDecode := by unfold Statement; decide

theorem envEncode : Statement .envEncode := by unfold Statement; decide

theorem cbcDecrypt : Statement .cbcDecrypt := by unfold Statement; decide

theorem cbcEncrypt : Statement .cbcEncrypt := by unfold Statement; decide

theorem lebDecode : Statement .lebDecode := by unfold Statement; decide

theorem lebEncode : Statement .lebEncode := by unfold Statement; decide

theorem qblToXml : Statement .qblToXml := by unfold Statement; decide

theorem xmlToQbl : Statement .xmlToQbl := by unfold Statement; decide

end Sys2Proof.Laws.EncodingRow
end

