-- ==== Sys2Proof/Tests/Slice0.lean ====
section
/-! SUPPORT. Tests of one step or one function each, their expected values taken from the vectors V10 to V66 of the spec and
from its rules, and for every obligation with hypotheses a state and operands that meet them. -/

namespace Sys2Proof.Tests

open Sys2Proof.Machine

-- One theorem at a time: each kernel evaluation that waits for another one holds a thread with its stack.
set_option Elab.async false

/-! ## Small states -/

/-- The test key of vector V20. -/
def testKey : Block :=
  ⟨⟨0x2b, 0x7e, 0x15, 0x16⟩, ⟨0x28, 0xae, 0xd2, 0xa6⟩, ⟨0xab, 0xf7, 0x15, 0x88⟩, ⟨0x09, 0xcf, 0x4f, 0x3c⟩⟩

/-- The test IV of vector V20. -/
def testIv : Block := Config.blockOf (BitVec.ofNat 8)

/-- Parameters with the test key and IV and the given capacities, the windows far apart. -/
def testParams (inCap outCap : Word) : Params := ⟨testKey, testIv, inCap, outCap, 0x0, 0x1000, 0x200000000⟩

/-- An idle block after reset, with capacities of 64 bytes, whose host has written the input `x` and its length. -/
def idle (x : List Byte) : State where
  cmd := 0
  status := 0
  inLen := BitVec.ofNat 32 x.length
  outLen := 0
  errCause := 0
  inBuf := Memory.holding 0 x
  outBuf := Memory.drawn 1
  params := testParams 64 64
  draws := 2
  turns := []
  replies := []

/-- The same block right after the CMD write of `w`. -/
def started (w : Word) (x : List Byte) : State := { idle x with cmd := w, status := 1 }

/-- An idle block with `n` in IN_LEN, whose buffers are as large as buffers can be and whose input bytes are draws. -/
def huge (n : Word) : State := { idle [] with inLen := n, params := testParams 0xFFFFFFFF 0xFFFFFFFF }

/-- STATUS, ERR_CAUSE and the result after a step that answers a next state. -/
def shown (r : Host.Outcome State Fault Refusal) : Option (Word × Word × List Byte) :=
  match r with
  | .next t => some (t.status, t.errCause, t.result)
  | .fault _ => none
  | .refused _ => none

/-- The step answers a fault. -/
def faults (r : Host.Outcome State Fault Refusal) : Bool :=
  match r with
  | .next _ => false
  | .fault _ => true
  | .refused _ => false

/-- The frame around `aa bb` (vector V19f). -/
def frameAB : List Byte := [0x7e, 0x00, 0x09, 0x00, 0x00, 0x00, 0x7f, 0x01, 0x02, 0x00, 0x00, 0x00, 0xaa, 0xbb, 0x7b]

/-- The qbl buffer of "<a/>" (vector V50). -/
def qblA : List Byte :=
  [0x7e, 0x00, 0x17, 0x00, 0x00, 0x00, 0x7f, 0x01, 0x10, 0x00, 0x00, 0x00, 0x93, 0xe6, 0x0f, 0x58, 0x40, 0xa3, 0x25, 0xdc, 0x5a,
   0xef, 0x01, 0x6d, 0x4f, 0x31, 0x0a, 0x8c, 0x7b]

/-- The ciphertext of `04 3c 61 2f 3e` (vector V23). -/
def cryptA : List Byte :=
  [0x93, 0xe6, 0x0f, 0x58, 0x40, 0xa3, 0x25, 0xdc, 0x5a, 0xef, 0x01, 0x6d, 0x4f, 0x31, 0x0a, 0x8c]

/-- The ciphertext of a lone padding block (vector V21). -/
def cryptEmpty : List Byte :=
  [0xc8, 0x4a, 0xf0, 0xb6, 0x13, 0x43, 0x5d, 0x5d, 0x91, 0x82, 0x80, 0x1a, 0x9b, 0xd9, 0x32, 0x0b]

/-- A ciphertext whose plaintext is sixteen 00 (vector V27). -/
def cryptZero : List Byte :=
  [0x50, 0xfe, 0x67, 0xcc, 0x99, 0x6d, 0x32, 0xb6, 0xda, 0x09, 0x37, 0xe9, 0x9b, 0xaf, 0xec, 0x60]

/-- A ciphertext whose plaintext ends in 11 (vector V27a). -/
def cryptSeventeen : List Byte :=
  [0xbf, 0xf7, 0xed, 0xa5, 0x95, 0xc2, 0xbe, 0x69, 0x6d, 0xea, 0xeb, 0x62, 0x1f, 0x59, 0xbb, 0x6a]

/-- A ciphertext whose plaintext ends in 01 02 (vector V28). -/
def cryptMixed : List Byte :=
  [0x24, 0x39, 0x62, 0xa0, 0x31, 0x80, 0x5a, 0x30, 0x15, 0x7f, 0x28, 0xd4, 0x1a, 0x53, 0x73, 0xb8]

/-! ## Well-formedness: each check refuses an ill-formed term (rules R6, R71 and R102) -/

theorem test_wf_refuses_reserved_op :
    (CommandWord.mk 0 0x0).opLegal = false ∧ (CommandWord.mk 0 0x9).opLegal = false ∧ (CommandWord.mk 0 0xF).wf = false := by
  decide

theorem test_wf_refuses_reserved_bits : (CommandWord.mk 1 0x1).rsvdZero = false ∧ (CommandWord.mk 1 0x1).wf = false := by
  decide

theorem test_wf_accepts_command_words : (CommandWord.mk 0 0x1).wf = true ∧ (CommandWord.mk 0 0x8).wf = true := by decide

theorem test_wf_refuses_small_in_cap :
    (testParams 12 64).inCapLegal = false ∧ (testParams 12 64).wf = false ∧ (testParams 13 1).wf = true := by decide

theorem test_wf_refuses_empty_out : (testParams 64 0).outCapLegal = false ∧ (testParams 64 0).wf = false := by decide

theorem test_wf_refuses_overlapping_windows :
    (Params.mk testKey testIv 64 64 0x0 0x1F 0x2000).placed = false ∧
    (Params.mk testKey testIv 64 64 0x0 0x20 0x5F).wf = false ∧ (Params.mk testKey testIv 64 64 0x0 0x20 0x60).wf = true := by
  decide

/-! ## Decoding: the words of rule R101, bit by bit, and their lanes (rule R79) -/

theorem test_decode_envDecode : decode 0b00000000000000000000000000000001 = .ok .envDecode := by decide

theorem test_decode_envEncode : decode 0b00000000000000000000000000000010 = .ok .envEncode := by decide

theorem test_decode_cbcDecrypt : decode 0b00000000000000000000000000000011 = .ok .cbcDecrypt := by decide

theorem test_decode_cbcEncrypt : decode 0b00000000000000000000000000000100 = .ok .cbcEncrypt := by decide

theorem test_decode_lebDecode : decode 0b00000000000000000000000000000101 = .ok .lebDecode := by decide

theorem test_decode_lebEncode : decode 0b00000000000000000000000000000110 = .ok .lebEncode := by decide

theorem test_decode_qblToXml : decode 0b00000000000000000000000000000111 = .ok .qblToXml := by decide

theorem test_decode_xmlToQbl : decode 0b00000000000000000000000000001000 = .ok .xmlToQbl := by decide

/-- Vectors V60 to V60d. -/
theorem test_decode_refuses :
    decode 0x00000000 = .error .reservedOp ∧ decode 0x00000009 = .error .reservedOp ∧
    decode 0x0000000F = .error .reservedOp ∧ decode 0x00000011 = .error .reservedBits ∧
    decode 0x80000000 = .error .reservedOp := by decide

theorem test_lanes_little_endian :
    lanes 0x04030201 = [0x01, 0x02, 0x03, 0x04] ∧ decodeLanes [0x00, 0x00, 0x00, 0x01] = .error (.illegal .reservedOp) ∧
    decodeLanes [0x01, 0x00, 0x00] = .error .notOneWord := by decide

/-! ## One step of each command, on the spec's vectors -/

/-- Vector V10. -/
theorem test_envDecode_payload : shown (step (started 1 frameAB)) = some (0x2, 0x0000, [0xaa, 0xbb]) := by decide +kernel

/-- Vectors V11 to V19d. -/
theorem test_envDecode_checks :
    envDecode (frameAB.take 12) = .err .tooShort ∧ envDecode [0x00, 0x01, 0x02, 0x03, 0x04] = .err .tooShort ∧
    envDecode (frameAB.set 0 0x7d) = .err .badMagic0 ∧ envDecode (frameAB.set 1 0x01) = .err .badMagic1 ∧
    envDecode (frameAB.set 6 0x7e) = .err .badMagic6 ∧ envDecode (frameAB.set 7 0x00) = .err .badMagic7 ∧
    envDecode (frameAB.set 14 0x7c) = .err .badTrailer ∧ envDecode (frameAB.set 2 0x0a) = .err .badOuterLen ∧
    envDecode (frameAB.set 8 0x03) = .err .badInnerLen ∧ envDecode (frameAB ++ [0x7b]) = .err .badOuterLen ∧
    envDecode [0x7e, 0x00, 0x07, 0x00, 0x00, 0x00, 0x7f, 0x01, 0x00, 0x00, 0x00, 0x00, 0x7b] = .ok [] := by decide +kernel

/-- Vector V19f. -/
theorem test_envEncode_frame : shown (step (started 2 [0xaa, 0xbb])) = some (0x2, 0x0000, frameAB) := by decide +kernel

/-- Vector V19h: 52 bytes with OUT_CAP = 64. -/
theorem test_envEncode_over_out :
    shown (step (started 2 (List.replicate 52 0x5a))) = some (0x6, 0x0204, []) := by decide +kernel

/-- Vector V26: a lone padding block decrypts to the empty output. -/
theorem test_cbcDecrypt_padding_block : shown (step (started 3 cryptEmpty)) = some (0x2, 0x0000, []) := by decide +kernel

/-- Vectors V26a, V26b, V27, V27a and V28. -/
theorem test_cbcDecrypt_errors :
    cbcDecrypt testKey testIv [] = .err .badCipherLength ∧
    cbcDecrypt testKey testIv (List.replicate 15 0x00) = .err .badCipherLength ∧
    cbcDecrypt testKey testIv cryptZero = .err .badPadLength ∧
    cbcDecrypt testKey testIv cryptSeventeen = .err .badPadLength ∧
    cbcDecrypt testKey testIv cryptMixed = .err .badPadBytes := by decide +kernel

/-- Vector V23. -/
theorem test_cbcEncrypt_block : shown (step (started 4 [0x04, 0x3c, 0x61, 0x2f, 0x3e])) = some (0x2, 0x0000, cryptA) := by
  decide +kernel

/-- Vector V25: a full padding block after sixteen 00, chained to the first block. -/
theorem test_cbcEncrypt_full_padding_block :
    shown (step (started 4 (List.replicate 16 0x00))) =
      some (0x2, 0x0000, cryptZero ++ [0x3a, 0x47, 0x1a, 0x73, 0x0e, 0x06, 0x60, 0x2f, 0x77, 0x91, 0xe0, 0x2e, 0x09, 0x92, 0x83,
        0x09]) := by decide +kernel

/-- Vectors V42c and V42d: the value is not checked, and a longer form is accepted. -/
theorem test_lebDecode_lenient :
    shown (step (started 5 [0x05, 0x61])) = some (0x2, 0x0000, [0x61]) ∧
    shown (step (started 5 [0x80, 0x00, 0x41])) = some (0x2, 0x0000, [0x41]) := by decide +kernel

/-- Vectors V43 and V43a. -/
theorem test_lebDecode_no_terminator :
    shown (step (started 5 [])) = some (0x6, 0x0A01, []) ∧
    shown (step (started 5 [0x80, 0x80])) = some (0x6, 0x0A01, []) := by decide +kernel

/-- Vector V41a. -/
theorem test_lebEncode_short :
    shown (step (started 6 [0x3c, 0x61, 0x2f, 0x3e])) = some (0x2, 0x0000, [0x04, 0x3c, 0x61, 0x2f, 0x3e]) := by decide +kernel

/-- Vectors V40b, V40c, V40e, V40f, V40h and V40k. -/
theorem test_lebEncode_digits :
    lebDigits 127 = [0x7f] ∧ lebDigits 128 = [0x80, 0x01] ∧ lebDigits 300 = [0xac, 0x02] ∧ lebDigits 16383 = [0xff, 0x7f] ∧
    lebDigits 2097151 = [0xff, 0xff, 0x7f] ∧ lebDigits 4294967295 = [0xff, 0xff, 0xff, 0xff, 0x0f] := by decide +kernel

/-- Vector V51. -/
theorem test_qblToXml_payload : shown (step (started 7 qblA)) = some (0x2, 0x0000, [0x3c, 0x61, 0x2f, 0x3e]) := by decide +kernel

/-- Vectors V54, V54a, V54b and V54c: the first failing stage is reported. -/
theorem test_qblToXml_errors :
    qblToXml testKey testIv (envFrame []) = .err .badCipherLength ∧
    qblToXml testKey testIv (envFrame cryptZero) = .err .badPadLength ∧
    qblToXml testKey testIv (envFrame cryptEmpty) = .err .noTerminator ∧
    qblToXml testKey testIv [0x00, 0x01, 0x02, 0x03, 0x04] = .err .tooShort := by decide +kernel

/-- Vector V50. -/
theorem test_xmlToQbl_buffer : shown (step (started 8 [0x3c, 0x61, 0x2f, 0x3e])) = some (0x2, 0x0000, qblA) := by decide +kernel

/-- Vector V56: 50 bytes with OUT_CAP = 64. -/
theorem test_xmlToQbl_over_out :
    shown (step (started 8 (List.replicate 50 0x5a))) = some (0x6, 0x0204, []) := by decide +kernel

/-! ## AES-128 (vectors V30, V32 and V33) -/

/-- The block of sixteen bytes, in the order of rule R201. -/
def block (b : List Byte) : Block := Config.blockOf fun k => b.getD k 0

theorem test_aes_fips_c1 :
    aesEnc (Config.blockOf (BitVec.ofNat 8)) (Config.blockOf fun k => BitVec.ofNat 8 (0x11 * k)) =
      block [0x69, 0xc4, 0xe0, 0xd8, 0x6a, 0x7b, 0x04, 0x30, 0xd8, 0xcd, 0xb7, 0x80, 0x70, 0xb4, 0xc5, 0x5a] ∧
    aesDec (Config.blockOf (BitVec.ofNat 8))
      (block [0x69, 0xc4, 0xe0, 0xd8, 0x6a, 0x7b, 0x04, 0x30, 0xd8, 0xcd, 0xb7, 0x80, 0x70, 0xb4, 0xc5, 0x5a]) =
      Config.blockOf fun k => BitVec.ofNat 8 (0x11 * k) := by decide +kernel

theorem test_aes_key_schedule :
    scheduleWord testKey 4 = ⟨0xa0, 0xfa, 0xfe, 0x17⟩ ∧ scheduleWord testKey 8 = ⟨0xf2, 0xc2, 0x95, 0xf2⟩ ∧
    scheduleWord testKey 43 = ⟨0xb6, 0x63, 0x0c, 0xa6⟩ := by decide +kernel

theorem test_aes_field :
    xtime 0x57 = 0xae ∧ gmul 0x57 0x83 = 0xc1 ∧ gmul 0x57 0x13 = 0xfe ∧ sbox 0x53 = 0xed ∧ invSbox 0xed = 0x53 := by decide

/-! ## The shell (vectors V60 to V66) -/

/-- An access at an offset of a space. -/
def at_ (sp : Space) (o : Nat) (op : AccessOp) : Access := ⟨.cell sp o, op⟩

/-- The reply to an access. -/
def reply (a : Access) (s : State) : Option Reply := (hostAccess a s).map (·.1)

/-- Vectors V60 and V60c. -/
theorem test_illegal_words :
    shown (step (started 0x00000000 [])) = some (0x6, 0x0103, []) ∧
    shown (step (started 0x00000011 [])) = some (0x6, 0x0203, []) := by decide +kernel

/-- Vectors V61 and V61a: IN_LEN = 65 with IN_CAP = 64. -/
theorem test_input_over_cap :
    shown (step { started 5 [] with inLen := 65 }) = some (0x6, 0x0104, []) ∧
    shown (step { started 9 [] with inLen := 65 }) = some (0x6, 0x0103, []) := by decide +kernel

/-- Vector V62. -/
theorem test_busy_reads :
    reply (at_ .reg 0x04 .read32) (started 1 []) = some (.word 0x1) ∧
    reply (at_ .reg 0x0C .read32) (started 1 []) = some (.word 0x0) ∧
    reply (at_ .reg 0x10 .read32) (started 1 []) = some (.word 0x0) := by decide

/-- Vectors V63, V63a and V63b. -/
theorem test_busy_writes_dropped :
    hostAccess (at_ .reg 0x08 (.write32 7)) (started 1 [0x11]) = some (.written, started 1 [0x11]) ∧
    hostAccess (at_ .input 0 (.write8 0xAA)) (started 1 [0x11]) = some (.written, started 1 [0x11]) ∧
    hostAccess (at_ .reg 0x00 (.write32 2)) (started 1 [0x11]) = some (.written, started 1 [0x11]) := by decide

/-- Vector V64. -/
theorem test_bus_errors :
    faults (step { idle [] with turns := [.host (at_ .reg 0x1C .read32)] }) = true ∧
    faults (step { idle [] with turns := [.host (at_ .reg 0x02 .read32)] }) = true ∧
    faults (step { idle [] with turns := [.host (at_ .reg 0x00 .read8)] }) = true ∧
    faults (step { idle [] with turns := [.host (at_ .input 0x00 .read32)] }) = true := by decide

/-- Vectors V65 and V66. -/
theorem test_read_only :
    hostAccess (at_ .reg 0x04 (.write32 0xFFFFFFFF)) (idle []) = some (.written, idle []) ∧
    reply (at_ .reg 0x14 .read32) (idle []) = some (.word 0x40) ∧ reply (at_ .reg 0x18 .read32) (idle []) = some (.word 0x40) := by
  decide

/-- Rule R71: the first and the last byte of each window, and the addresses next to it. -/
theorem test_windows :
    locate (testParams 64 64) (.bus 0x0) = some (.reg, 0) ∧ locate (testParams 64 64) (.bus 0x1F) = some (.reg, 0x1F) ∧
    locate (testParams 64 64) (.bus 0x20) = none ∧ locate (testParams 64 64) (.bus 0xFFF) = none ∧
    locate (testParams 64 64) (.bus 0x103F) = some (.input, 0x3F) ∧ locate (testParams 64 64) (.bus 0x1040) = none ∧
    locate (testParams 64 64) (.bus 0x200000000) = some (.output, 0) ∧
    locate (testParams 64 64) (.bus 0x200000040) = none := by decide

/-- Program P1 as its accesses (rule R104). -/
theorem test_program_accesses :
    programAccesses [.load [0x3c, 0x61], .run .xmlToQbl 1, .rdout 0 2] =
      [at_ .input 0 (.write8 0x3c), at_ .input 1 (.write8 0x61), at_ .reg 0x08 (.write32 2), at_ .reg 0x00 (.write32 8),
       at_ .reg 0x04 .read32, at_ .reg 0x04 .read32, at_ .output 0 .read8, at_ .output 1 .read8] := by decide

/-! ## The end of a host program (rule R345) -/

/-- A program of one CMD write ends at its command step, and not before it. -/
theorem test_observation_at_the_end :
    let s : State := { idle [0x01, 0x61] with turns := [.host (at_ .reg 0x00 (.write32 5))] }
    observeRun 1 s noCommandYet = none ∧ observeRun 2 s noCommandYet = some ⟨0x2, 1, 0, [0x61]⟩ := by decide +kernel

/-- A program whose command a reset abandons does not end (rule R343), although the phase is IDLE. -/
theorem test_no_end_after_abandon :
    observeRun 4 { idle [] with turns := [.host (at_ .reg 0x00 (.write32 5)), .reset] } noCommandYet = none := by decide +kernel

/-- A program has not ended while an access is still to come, although its command has ended. -/
theorem test_no_end_before_last_access :
    observeRun 2 { idle [] with
      turns := [.host (at_ .reg 0x00 (.write32 5)), .engine, .host (at_ .reg 0x04 .read32)] } noCommandYet = none := by
  decide +kernel

/-! ## Hypotheses met: states of the invariant -/

/-- An idle block that has completed no command. -/
theorem test_inv_idle : MachineInv (idle [0xaa, 0xbb]) where
  statusLegal := by decide
  untouched := by decide
  running := by decide
  succeeded := fun h => absurd h (by decide)
  failed := fun h => absurd h (by decide)
  outLenFits := by decide
  inCanonical := by decide
  outCanonical := by decide
  inBounded := by decide
  outBounded := by decide
  resultStored := by decide
  drawsMade := by decide
  paramsLegal := by decide

/-- A block in phase BUSY. -/
theorem test_inv_started : MachineInv (started 2 [0xaa, 0xbb]) where
  statusLegal := by decide
  untouched := by decide
  running := by decide
  succeeded := fun h => absurd h (by decide)
  failed := fun h => absurd h (by decide)
  outLenFits := by decide
  inCanonical := by decide
  outCanonical := by decide
  inBounded := by decide
  outBounded := by decide
  resultStored := by decide
  drawsMade := by decide
  paramsLegal := by decide

/-- A block whose last command succeeded. -/
theorem test_inv_succeeded : MachineInv ((started 5 [0x01, 0x61]).deliver [0x61]) where
  statusLegal := by decide
  untouched := by decide
  running := by decide
  succeeded := fun _ => ⟨rfl, .lebDecode, rfl⟩
  failed := fun h => absurd h (by decide)
  outLenFits := by decide
  inCanonical := by decide
  outCanonical := by decide
  inBounded := by decide
  outBounded := by decide
  resultStored := by decide
  drawsMade := by decide
  paramsLegal := by decide

/-- A block whose last command failed. -/
theorem test_inv_failed : MachineInv ((started 5 []).reportError .noTerminator) where
  statusLegal := by decide
  untouched := by decide
  running := by decide
  succeeded := fun h => absurd h (by decide)
  failed := fun _ => ⟨rfl, .noTerminator, rfl⟩
  outLenFits := by decide
  inCanonical := by decide
  outCanonical := by decide
  inBounded := by decide
  outBounded := by decide
  resultStored := by decide
  drawsMade := by decide
  paramsLegal := by decide

/-- EveryStepKeepsMachineInvariant and ConstantsNeverChange: an engine step, a host access, a reset and an idle step. -/
theorem test_meets_step :
    (∃ t, step (started 2 [0xaa, 0xbb]) = .next t) ∧
    (∃ t, step { idle [0xaa, 0xbb] with turns := [.host (at_ .reg 0x04 .read32)] } = .next t) ∧
    (∃ t, step { idle [0xaa, 0xbb] with turns := [.reset] } = .next t) ∧
    ∃ t, step (idle [0xaa, 0xbb]) = .next t := ⟨⟨_, rfl⟩, ⟨_, rfl⟩, ⟨_, rfl⟩, ⟨_, rfl⟩⟩

/-- OnlyFourStatusValuesOccur: a run from reset that ends in a next state. -/
theorem test_meets_run_from_reset :
    ∃ t, Sys2Proof.core.run 1 (State.reset.withTurns [.host (at_ .reg 0x04 .read32)]) = .next t := ⟨_, rfl⟩

/-! ## Hypotheses met: reset and decoding -/

/-- ResetAbandonsTheCommand. -/
theorem test_meets_reset_abandons :
    ({ started 2 [] with turns := [.reset] } : State).turns = .reset :: [] ∧
    (started 2 []).busy = true ∧ ∃ t, step (started 2 []) = .next t ∧ t.busy = false := ⟨rfl, by decide, _, rfl, by decide⟩

/-- DecodeAndEncodeAgree. -/
theorem test_meets_decode : decode 0x00000008 = .ok .xmlToQbl ∧ decodeLanes [0x08, 0x00, 0x00, 0x00] = .ok .xmlToQbl := by decide

/-- IllegalWordsFailAtTheCommandStep: each kind of word at the ends of its range, and an idle block. -/
theorem test_meets_illegal_words :
    ((0x00000000 : Word).extractLsb' 0 4).toNat = 0 ∧ 9 ≤ ((0xFFFFFFF9 : Word).extractLsb' 0 4).toNat ∧
    9 ≤ ((0x0000000F : Word).extractLsb' 0 4).toNat ∧
    ((0x00000011 : Word).extractLsb' 0 4).toNat = 1 ∧ (0x00000011 : Word).extractLsb' 4 28 ≠ 0 ∧
    ((0x80000008 : Word).extractLsb' 0 4).toNat = 8 ∧ (0x80000008 : Word).extractLsb' 4 28 ≠ 0 ∧
    ((0x00000008 : Word).extractLsb' 0 4).toNat = 8 ∧ (0x00000008 : Word).extractLsb' 4 28 = 0 ∧
    decode 0x00000000 = .error .reservedOp ∧ decode 0x00000011 = .error .reservedBits ∧ (idle []).busy = false := by decide

/-! ## Hypotheses met: the engine -/

/-- StepRunsTheDecodedCommand, CommandOutcomeIsExec, CommandStepWritesTheOutcome, CmdWriteStartsACommand, BusyWritesAreDropped
and BusyReadsReturn: a block in phase BUSY with a command next, and an idle one. -/
theorem test_meets_busy :
    (started 2 [0xaa]).busy = true ∧ decode (started 2 [0xaa]).cmd = .ok .envEncode ∧ (started 2 [0xaa]).turns = [] ∧
    ({ started 2 [0xaa] with turns := [.engine, .reset] } : State).turns = .engine :: [.reset] ∧
    (idle [0xaa]).busy = false ∧ 63 < (started 2 [0xaa]).params.inCap.toNat ∧ 63 < (started 2 [0xaa]).params.outCap.toNat := by
  decide

/-- CommandOutcomeIsExec and ObservationDependsOnCommandAndInputOnly: two busy blocks that differ in bytes above IN_LEN, in OUT
and in the turns to come. -/
theorem test_meets_same_input :
    let s := started 2 [0xaa]
    let u : State := { s with inBuf := Memory.holding 0 [0xaa, 0xcc], outBuf := Memory.drawn 7, draws := 9, turns := [.engine] }
    s.busy = true ∧ u.busy = true ∧ u.cmd = s.cmd ∧ u.inLen = s.inLen ∧ u.params = s.params ∧ u ≠ s ∧
      (List.range s.inLen.toNat).map u.inBuf.read = (List.range s.inLen.toNat).map s.inBuf.read := by decide +kernel

/-- CommandStepWritesTheOutcome: an accepted access in phase BUSY, and OUT bytes above the result. -/
theorem test_meets_command_step :
    (∃ t, hostTurn (at_ .output 63 .read8) (started 2 [0xaa]) = .next t) ∧
    ∃ t, engineTurn (started 2 [0xaa]) = .next t ∧ t.outLen.toNat ≤ 14 ∧ 63 < outRoom (started 2 [0xaa]) :=
  ⟨⟨_, rfl⟩, ⟨_, rfl, by decide, by decide⟩⟩

/-- CapacityErrorsOfEveryCommand: one byte too many in each direction. -/
theorem test_meets_capacity :
    ({ idle [] with inLen := 65 } : State).params.inCap.toNat < ({ idle [] with inLen := 65 } : State).inLen.toNat ∧
    InputFits (idle (List.replicate 52 0x5a)) ∧
    codecByOp (testParams 64 64) Instr.envEncode.op.toNat (idle (List.replicate 52 0x5a)).input =
      .ok (envFrame (List.replicate 52 0x5a)) ∧
    outRoom (idle (List.replicate 52 0x5a)) < (envFrame (List.replicate 52 0x5a)).length := by
  unfold InputFits; decide +kernel

/-! ## Hypotheses met: the commands -/

/-- EnvDecodeDeliversThePayload and EnvDecodeMakesEightChecks; the inputs of test_envDecode_checks reach each check. -/
theorem test_meets_envDecode :
    InputFits (idle frameAB) ∧
    (idle frameAB).input = [0x7E, 0x00] ++ le32 (2 + 7) ++ [0x7F, 0x01] ++ le32 2 ++ [0xaa, 0xbb] ++ [0x7B] ∧
    2 ≤ outRoom (idle frameAB) ∧
    outRoom { idle frameAB with params := testParams 64 1 } < (idle frameAB).input.length - 13 := by
  unfold InputFits; decide +kernel

/-- EnvEncodeBuildsTheFrame: 51 and 52 bytes with OUT_CAP = 64, and the shortest input that overflows (vector V19g). -/
theorem test_meets_envEncode :
    InputFits (idle (List.replicate 51 0x5a)) ∧ (idle (List.replicate 51 0x5a)).input.length + 13 = outRoom (idle []) ∧
    InputFits (idle (List.replicate 52 0x5a)) ∧ outRoom (idle []) + 1 = (idle (List.replicate 52 0x5a)).input.length + 13 ∧
    InputFits (huge 0xFFFFFFF9) ∧ (huge 0xFFFFFFF9).input.length + 7 = 0xFFFFFFFF + 1 ∧
    InputFits (huge 0xFFFFFFF8) ∧ (huge 0xFFFFFFF8).input.length + 7 = 0xFFFFFFFF ∧
    outRoom (huge 0xFFFFFFF8) < (huge 0xFFFFFFF8).input.length + 13 := by
  unfold InputFits; simp only [length_input]; decide +kernel

/-- CbcDecryptUnpadsThePlaintext: the lengths 0, 15 and 16; N = 0, 17, 2 with a wrong byte, and 16; and a result one byte
longer than OUT. -/
theorem test_meets_cbcDecrypt :
    InputFits (idle []) ∧ (idle []).input.length = 0 ∧ (idle (List.replicate 15 0x00)).input.length % 16 ≠ 0 ∧
    InputFits (idle cryptZero) ∧ (idle cryptZero).input.length = 16 ∧
    ((cbcDec testKey testIv (idle cryptZero).input).getD 15 0).toNat = 0 ∧
    ((cbcDec testKey testIv (idle cryptSeventeen).input).getD 15 0).toNat = 17 ∧
    ((cbcDec testKey testIv (idle cryptMixed).input).getD 15 0).toNat = 2 ∧
    ((cbcDec testKey testIv (idle cryptMixed).input).getD 14 0).toNat ≠ 2 ∧
    cbcDec testKey testIv (idle cryptEmpty).input = List.replicate 16 0x10 ∧
    cbcDec testKey testIv (idle cryptA).input = [0x04, 0x3c, 0x61, 0x2f, 0x3e] ++ List.replicate 11 0x0b ∧
    outRoom { idle cryptA with params := testParams 64 4 } < 16 - 11 := by
  unfold InputFits; decide +kernel

/-- CbcEncryptPadsAndChains: 47 bytes fill 48 of OUT_CAP = 64, 63 bytes fill all 64, and 64 bytes need 80. -/
theorem test_meets_cbcEncrypt :
    InputFits (idle (List.replicate 63 0x00)) ∧
    16 * ((idle (List.replicate 63 0x00)).input.length / 16 + 1) = outRoom (idle []) ∧
    InputFits (idle (List.replicate 64 0x00)) ∧
    outRoom (idle []) < 16 * ((idle (List.replicate 64 0x00)).input.length / 16 + 1) := by
  unfold InputFits; simp only [length_input]; decide +kernel

/-- LebDecodeScansToTheTerminator: no terminator, a terminator first, a terminator last, and a result longer than OUT. -/
theorem test_meets_lebDecode :
    InputFits (idle [0x80, 0xff]) ∧ (∀ d ∈ (idle [0x80, 0xff]).input, d.getLsbD 7 = true) ∧
    (idle [0x7f, 0xff]).input = [] ++ 0x7f :: [0xff] ∧ (0x7f : Byte).getLsbD 7 = false ∧
    (idle [0x80, 0x01]).input = [0x80] ++ 0x01 :: [] ∧ (∀ e ∈ [(0x80 : Byte)], e.getLsbD 7 = true) ∧
    outRoom { idle [0x00, 0x61, 0x62] with params := testParams 64 1 } < [(0x61 : Byte), 0x62].length := by
  unfold InputFits; decide +kernel

/-- LebEncodeWritesTheLength: 63 bytes fill OUT_CAP = 64, and 64 bytes need 65. -/
theorem test_meets_lebEncode :
    InputFits (idle (List.replicate 63 0x00)) ∧ (lebDigits 63).length + 63 = outRoom (idle []) ∧
    InputFits (idle (List.replicate 64 0x00)) ∧ outRoom (idle []) < (lebDigits 64).length + 64 ∧
    (idle (List.replicate 64 0x00)).input.length = 64 := by
  unfold InputFits; decide +kernel

/-- QblToXmlRunsTheDecoders: an error of each stage, a result, and a result longer than OUT. -/
theorem test_meets_qblToXml :
    InputFits (idle qblA) ∧ envDecode (idle (qblA.set 0 0x00)).input = .err .badMagic0 ∧
    envDecode (idle (envFrame cryptZero)).input = .ok cryptZero ∧ cbcDecrypt testKey testIv cryptZero = .err .badPadLength ∧
    envDecode (idle (envFrame cryptEmpty)).input = .ok cryptEmpty ∧ cbcDecrypt testKey testIv cryptEmpty = .ok [] ∧
    lebDecode [] = .err .noTerminator ∧ envDecode (idle qblA).input = .ok cryptA ∧
    cbcDecrypt testKey testIv cryptA = .ok [0x04, 0x3c, 0x61, 0x2f, 0x3e] ∧
    lebDecode [0x04, 0x3c, 0x61, 0x2f, 0x3e] = .ok [0x3c, 0x61, 0x2f, 0x3e] ∧
    outRoom { idle qblA with params := testParams 64 3 } < 4 := by
  unfold InputFits; decide +kernel

/-- XmlToQblRunsTheEncoders: 46 bytes give 61 of OUT_CAP = 64 and 47 bytes need 77; the shortest input whose ciphertext length
overflows, and the longest whose does not. -/
theorem test_meets_xmlToQbl :
    InputFits (idle (List.replicate 46 0x5a)) ∧ 16 * ((46 + (lebDigits 46).length) / 16 + 1) + 13 ≤ outRoom (idle []) ∧
    (idle (List.replicate 46 0x5a)).input.length = 46 ∧
    outRoom (idle []) < 16 * ((47 + (lebDigits 47).length) / 16 + 1) + 13 ∧
    InputFits (huge 0xFFFFFFEB) ∧ (huge 0xFFFFFFEB).input.length = 0xFFFFFFEB ∧
    16 * ((0xFFFFFFEB + (lebDigits 0xFFFFFFEB).length) / 16 + 1) + 7 > 0xFFFFFFFF ∧
    InputFits (huge 0xFFFFFFEA) ∧ (huge 0xFFFFFFEA).input.length = 0xFFFFFFEA ∧
    16 * ((0xFFFFFFEA + (lebDigits 0xFFFFFFEA).length) / 16 + 1) + 7 ≤ 0xFFFFFFFF := by
  unfold InputFits; simp only [length_input]; decide +kernel

/-! ## Hypotheses met: round trips and codecs -/

/-- EnvelopeRoundTrip: an input whose frame just fits, and a block whose input is the result of another's command. -/
theorem test_meets_envelope_round_trip :
    (idle (List.replicate 51 0x5a)).input.length + 13 = (idle []).params.inCap.toNat ∧
    (∃ t, exec .envEncode (started 2 [0xaa, 0xbb]) = .next t ∧ (idle frameAB).params = (started 2 [0xaa, 0xbb]).params ∧
      (idle frameAB).input = t.result) ∧ envDecode frameAB = .ok [0xaa, 0xbb] :=
  ⟨by simp only [length_input]; decide +kernel, ⟨_, rfl, by decide, by decide +kernel⟩, by decide +kernel⟩

/-- CipherRoundTrip. -/
theorem test_meets_cipher_round_trip :
    InputFits (idle (List.replicate 63 0x00)) ∧
    16 * ((idle (List.replicate 63 0x00)).input.length / 16 + 1) = (idle []).params.inCap.toNat ∧
    ∃ t, exec .cbcEncrypt (started 4 []) = .next t ∧ (idle cryptEmpty).params = (started 4 []).params ∧
      (idle cryptEmpty).input = t.result :=
  ⟨by unfold InputFits; decide +kernel, by simp only [length_input]; decide +kernel, _, rfl, by decide, by decide +kernel⟩

/-- LengthPrefixRoundTrip; the buffers of vectors V42d and V42c are ones whose digits are non-minimal or not the length. -/
theorem test_meets_length_prefix_round_trip :
    (∀ e ∈ [(0x80 : Byte)], e.getLsbD 7 = true) ∧ (0x00 : Byte).getLsbD 7 = false ∧ [(0x80 : Byte)] ≠ [] ∧
    (0x05 : Byte).getLsbD 7 = false ∧ lebValue ([] ++ [0x05]) ≠ [(0x61 : Byte)].length ∧
    (idle (List.replicate 63 0x00)).input.length + (lebDigits 63).length = (idle []).params.inCap.toNat ∧
    ∃ t, exec .lebEncode (started 6 [0x61]) = .next t ∧ (idle [0x01, 0x61]).params = (started 6 [0x61]).params ∧
      (idle [0x01, 0x61]).input = t.result :=
  ⟨by decide, by decide, by decide, by decide, by decide, by simp only [length_input]; decide +kernel, _, rfl, by decide,
    by decide +kernel⟩

/-- PipelineRoundTrip. -/
theorem test_meets_pipeline_round_trip :
    xmlToQbl testKey testIv (idle [0x3c, 0x61, 0x2f, 0x3e]).input = .ok qblA ∧
    qblA.length ≤ (idle []).params.inCap.toNat ∧ qblA.length ≤ outRoom (idle []) ∧ (idle qblA).input = qblA := by decide +kernel

/-- LengthDigitCount: the lengths at the ends of each range. -/
theorem test_meets_length_digit_count :
    (List.replicate 127 (0 : Byte)).length < 2 ^ 7 ∧ 2 ^ 7 ≤ (List.replicate 128 (0 : Byte)).length ∧
    (List.replicate 16383 (0 : Byte)).length < 2 ^ 14 ∧ 2 ^ 14 ≤ (List.replicate 16384 (0 : Byte)).length ∧
    (List.replicate 2097151 (0 : Byte)).length < 2 ^ 21 ∧ 2 ^ 21 ≤ (List.replicate 2097152 (0 : Byte)).length ∧
    (List.replicate 268435455 (0 : Byte)).length < 2 ^ 28 ∧ 2 ^ 28 ≤ (List.replicate 268435456 (0 : Byte)).length ∧
    (List.replicate 34359738367 (0 : Byte)).length < 2 ^ 35 ∧ (lebDigits 128).length = 2 := by
  simp only [List.length_replicate]; decide +kernel

/-- UnpadChecksEveryPaddingByte: N = 0, 17, 2 with a wrong byte, 1 and 16. -/
theorem test_meets_unpad :
    ((List.replicate 16 (0x00 : Byte)).getD 15 0).toNat = 0 ∧
    ((List.replicate 15 (0x00 : Byte) ++ [0x11]).getD 15 0).toNat = 17 ∧
    ((List.replicate 14 (0x00 : Byte) ++ [0x01, 0x02]).getD 15 0).toNat = 2 ∧
    ((List.replicate 14 (0x00 : Byte) ++ [0x01, 0x02]).getD 14 0).toNat ≠ 2 ∧
    ((List.replicate 15 (0x00 : Byte) ++ [0x01]).getD 15 0).toNat = 1 ∧
    (∀ k, k < 17 → 1 ≤ k → ((List.replicate 16 (0x10 : Byte)).getD (16 - k) 0).toNat = 16) := by decide

/-- CbcEncryptionChain and CbcDecryptionChain: two blocks. -/
theorem test_meets_cbc_chain :
    (cryptA ++ cryptZero).length = 16 * 2 ∧ (splitBlocks (cryptA ++ cryptZero))[0]? = some (block cryptA) ∧
    (splitBlocks (cryptA ++ cryptZero))[0 + 1]? = some (block cryptZero) ∧
    (∃ c, (splitBlocks (cbcEnc testKey testIv (cryptA ++ cryptZero)))[0]? = some c) := by
  refine ⟨by decide, by decide, by decide, ?_⟩
  exact ⟨aesEnc testKey (Block.xor (block cryptA) testIv), by decide +kernel⟩

/-- EqualStartsEncryptAlike: inputs that agree on one block. -/
theorem test_meets_equal_starts :
    16 * 1 ≤ (cryptA ++ [0x01]).length ∧ 16 * 1 ≤ (cryptA ++ [0x02, 0x03]).length ∧
    (cryptA ++ [0x01]).take (16 * 1) = (cryptA ++ [0x02, 0x03]).take (16 * 1) ∧
    (∃ cx, cbcEncrypt testKey testIv (cryptA ++ [0x01]) = .ok cx) ∧
    ∃ cy, cbcEncrypt testKey testIv (cryptA ++ [0x02, 0x03]) = .ok cy :=
  ⟨by decide, by decide, by decide, ⟨_, rfl⟩, ⟨_, rfl⟩⟩

/-- TermIndexIsTheFirstTerminator, SboxIsTheAffineImage, RowShiftsAndBlockOrder, KeyScheduleRecurrence and LittleEndianWords at
the ends of their ranges. -/
theorem test_meets_ranges :
    termIndex [0x80, 0x01] = some 1 ∧ termIndex [0x80, 0xff] = none ∧ (0x00 : Byte) = 0 ∧ (0xFF : Byte) ≠ 0 ∧ 3 < 4 ∧ 4 ≤ 43 ∧
    43 < 44 ∧ 4 % 4 = 0 ∧ 43 % 4 ≠ 0 ∧ 0xFFFFFFFF < 2 ^ 32 := by decide

/-! ## Hypotheses met: host accesses -/

/-- RegisterAccessesByOffset and BusErrorExactlyWhenRefused: offsets at the ends of each clause. -/
theorem test_meets_register_offsets :
    ¬ (0x02 % 4 = 0 ∧ 0x02 ≤ 0x18) ∧ ¬ (0x1C % 4 = 0 ∧ 0x1C ≤ 0x18) ∧ (0x04 % 4 = 0 ∧ 0x04 ≤ 0x18 ∧ 0x04 ≠ 0 ∧ 0x04 ≠ 8) ∧
    (0x18 % 4 = 0 ∧ 0x18 ≤ 0x18) ∧ accepted (testParams 64 64) (at_ .reg 0x18 .read32) = true ∧
    accepted (testParams 64 64) (at_ .reg 0x1C .read32) = false ∧ accepted (testParams 64 64) (at_ .input 63 .read8) = true ∧
    accepted (testParams 64 64) (at_ .output 64 .read8) = false ∧
    ({ idle [] with turns := [.host (at_ .reg 0x1C .read32)] } : State).turns = .host (at_ .reg 0x1C .read32) :: [] := by decide

/-- BufferAccessesByIndex and ReadOnlyWritesChangeNothing: the last index of each buffer and the one after it. -/
theorem test_meets_buffer_indexes :
    63 < (idle []).params.inCap.toNat ∧ (idle []).params.inCap.toNat ≤ 64 ∧ 63 < (idle []).params.outCap.toNat ∧
    (idle []).params.outCap.toNat ≤ 64 ∧ (idle []).inBuf.wf = true ∧ (idle []).busy = false ∧ (started 1 []).busy = true := by
  decide

/-- ReadsHaveNoSideEffect: a read of a register, of IN and of OUT. -/
theorem test_meets_reads :
    (∃ r t, hostAccess (at_ .reg 0x04 .read32) (idle []) = some (r, t)) ∧
    (∃ r t, hostAccess (at_ .input 63 .read8) (idle []) = some (r, t)) ∧
    (∃ r t, hostAccess (at_ .output 63 .read8) (started 1 []) = some (r, t)) ∧
    isRead .read32 = true ∧ isRead .read8 = true := ⟨⟨_, _, rfl⟩, ⟨_, _, rfl⟩, ⟨_, _, rfl⟩, rfl, rfl⟩

/-- BusAddressesReachTheirWindow: windows that do not overlap, the ends of one, and an address outside all three. -/
theorem test_meets_windows :
    (testParams 64 64).placed = true ∧ spaceBase (testParams 64 64) .input ≤ 0x1000 ∧
    0x103F < spaceBase (testParams 64 64) .input + spaceSize (testParams 64 64) .input ∧
    (0x1040 < spaceBase (testParams 64 64) .output ∧ spaceBase (testParams 64 64) .input + spaceSize (testParams 64 64) .input ≤
      0x1040 ∧ spaceBase (testParams 64 64) .reg + spaceSize (testParams 64 64) .reg ≤ 0x1040) := by decide

/-- InputBytesChangeOnlyWhenWritten: a write of IN[1] that changes it. -/
theorem test_meets_input_change :
    let s : State := { idle [0xaa, 0xbb] with turns := [.host (at_ .input 1 (.write8 0xcc))] }
    s.inBuf.wf = true ∧ ∃ t, step s = .next t ∧ t.inBuf.read 1 ≠ s.inBuf.read 1 := ⟨by decide, _, rfl, by decide⟩

/-- OutputChangesOnlyAtTheCommandStep: a command step that changes OUT. -/
theorem test_meets_output_change :
    ∃ t, step (started 2 [0xaa, 0xbb]) = .next t ∧ t.outBuf ≠ (started 2 [0xaa, 0xbb]).outBuf := ⟨_, rfl, by decide⟩

/-- StartedCommandsEnd and HostAccessesDoNotDisturbACommand: accepted accesses before the command step. -/
theorem test_meets_accesses_before_the_step :
    (∀ a ∈ [at_ .reg 0x08 (.write32 0), at_ .output 63 .read8], accepted (started 2 [0xaa]).params a = true) ∧
    (∀ x ∈ [Turn.host (at_ .reg 0x04 .read32), .reset, .engine], turnAccepted (started 2 [0xaa]).params x = true) ∧
    (started 2 [0xaa]).busy = true := by decide

/-- HostOrderRunsOneCommand: an idle block and an input that fills IN. -/
theorem test_meets_host_order :
    (idle []).busy = false ∧ (idle []).inBuf.wf = true ∧ (List.replicate 64 (0x61 : Byte)).length = (idle []).params.inCap.toNat ∧
    codecByOp (idle []).params Instr.lebDecode.op.toNat [0x80] = .err .noTerminator ∧
    codecByOp (idle []).params Instr.lebDecode.op.toNat [0x01, 0x61] = .ok [0x61] ∧ 1 ≤ outRoom (idle []) ∧
    codecByOp (idle []).params Instr.lebEncode.op.toNat (List.replicate 64 0x61) =
      .ok (0x40 :: List.replicate 64 0x61) ∧ outRoom (idle []) < (0x40 :: List.replicate 64 (0x61 : Byte)).length := by
  decide +kernel

end Sys2Proof.Tests
end

section
/-! The laws of the build parameters, and the invariant of the reset state (rules R6, R36, R43, R44, R71 and R340). -/

namespace Sys2Proof

/-! ## The build parameters are legal, whatever their candidates are (rules R6 and R71) -/

@[simp] theorem Config.params_inCap : Config.params.inCap = Config.inCap := by
  unfold Config.params
  split <;> rfl

@[simp] theorem Config.params_outCap : Config.params.outCap = Config.outCap := by
  unfold Config.params
  split <;> rfl

theorem Config.thirteen_le_inCap : 13 ≤ Config.inCap.toNat := by
  unfold Config.inCap
  split
  case isTrue h => exact h
  case isFalse => decide

theorem Config.one_le_outCap : 1 ≤ Config.outCap.toNat := by
  unfold Config.outCap
  split
  case isTrue h => exact h
  case isFalse => decide

/-- Windows that overlap in the candidate are laid end to end, where each begins at or above the end of the one before. -/
theorem Config.params_placed : Config.params.placed = true := by
  unfold Config.params
  split
  case isTrue h => exact h
  case isFalse => simp [Params.placed, windowsApart, Config.candidate]

theorem Config.params_wf : Config.params.wf = true := by
  simp [Params.wf, Params.inCapLegal, Params.outCapLegal, Config.thirteen_le_inCap, Config.one_le_outCap,
    Config.params_placed]

namespace Machine

/-! ## The reset state -/

/-- Settles O1, field by field: STATUS is 0, both buffers are freshly drawn, and the parameters are those of the build. -/
theorem resetSatisfiesMachineInvariant : Obligations.ResetSatisfiesMachineInvariant where
  statusLegal := .inl rfl
  untouched := fun _ => ⟨rfl, rfl, rfl⟩
  running := fun _ => ⟨rfl, rfl⟩
  succeeded := fun h => absurd h (by decide)
  failed := fun h => absurd h (by decide)
  outLenFits := Nat.zero_le _
  inCanonical := reset_wf.1
  outCanonical := reset_wf.2
  inBounded := fun _ h => absurd h List.not_mem_nil
  outBounded := fun _ h => absurd h List.not_mem_nil
  resultStored := fun k h => absurd h (Nat.not_lt_zero k)
  drawsMade := by decide
  paramsLegal := Config.params_wf

end Machine
end Sys2Proof
end

section
/-! The laws of words as bytes: register lanes, `le32` and `rd_le32` (rules R10, R76 and R79). -/

namespace Sys2Proof.Machine

theorem lanes_getElem? (w : Word) (k : Nat) (hk : k < 4) : (lanes w)[k]? = some (w.extractLsb' (8 * k) 8) := by
  match k, hk with
  | 0, _ | 1, _ | 2, _ | 3, _ => rfl

/-- The bits of a lane lie below bit 32, so cutting a number to 32 bits loses none of them. -/
theorem extractLsb'_lane_ofNat (v k : Nat) (hk : k < 4) :
    (BitVec.ofNat 32 v).extractLsb' (8 * k) 8 = BitVec.ofNat 8 (v >>> (8 * k)) := by
  apply BitVec.eq_of_getLsbD_eq
  intro i hi
  have hbit : 8 * k + i < 32 := by omega
  simp only [BitVec.getLsbD_extractLsb', BitVec.getLsbD_ofNat, Nat.testBit_shiftRight, hi, hbit,
    decide_true, Bool.true_and]

theorem le32_getElem? (v k : Nat) (hk : k < 4) : (le32 v)[k]? = some (BitVec.ofNat 8 (v >>> (8 * k))) := by
  rw [le32, lanes_getElem? _ k hk, extractLsb'_lane_ofNat v k hk]

/-- Reading `b` at a place inside its second part. -/
theorem byteAt_append_right (pre b : List Byte) (i : Nat) : byteAt (pre ++ b) (pre.length + i) = byteAt b i := by
  simp only [byteAt, List.getD_eq_getElem?_getD, List.getElem?_append_right (Nat.le_add_right _ _),
    Nat.add_sub_cancel_left]

/-- `rd_le32` reads the four lanes that stand at its place. -/
theorem rdLe32_append (pre post : List Byte) (l0 l1 l2 l3 : Byte) :
    rdLe32 (pre ++ [l0, l1, l2, l3] ++ post) pre.length = ofLanes l0 l1 l2 l3 := by
  have h0 := byteAt_append_right pre ([l0, l1, l2, l3] ++ post) 0
  rw [Nat.add_zero] at h0
  simp only [rdLe32, List.append_assoc, h0, byteAt_append_right]
  rfl

/-- `rd_le32` at the place of `le32(v)` reads the low 32 bits of `v`. -/
theorem rdLe32_le32 (v : Nat) (pre post : List Byte) :
    rdLe32 (pre ++ le32 v ++ post) pre.length = BitVec.ofNat 32 v := by
  rw [le32, lanes, rdLe32_append, ofLanes_lanes]

/-- Settles O31, from what `rd_le32` reads at the place of a `le32` and from the lanes of a word. -/
theorem littleEndianWords : Obligations.LittleEndianWords := by
  refine ⟨fun v pre post hv => ?_, le32_getElem?, lanes_getElem?⟩
  rw [rdLe32_le32, BitVec.toNat_ofNat, Nat.mod_eq_of_lt hv]

end Sys2Proof.Machine
end

section
/-! The invariant of the machine's states: what each update of the state keeps of it, and that every step keeps it (rules R6,
R36, R38, R39, R43, R44, R110, R112 and R341). -/

namespace Sys2Proof.Machine

/-! ## What a completion leaves unchanged (rule R112) -/

@[simp] theorem complete_inBuf (s : State) (r : Result) : (s.complete r).inBuf = s.inBuf := by cases r <;> rfl

@[simp] theorem complete_params (s : State) (r : Result) : (s.complete r).params = s.params := by cases r <;> rfl

@[simp] theorem complete_busy (s : State) (r : Result) : (s.complete r).busy = false := by cases r <;> simp

namespace MachineInv

variable {s : State}

/-! ## Updates of the model's own fields -/

theorem withTurns (h : MachineInv s) (ts : List Turn) : MachineInv (s.withTurns ts) := { h with }

theorem record (h : MachineInv s) (r : Reply) : MachineInv (s.record r) := { h with }

/-- A byte drawn for a read of OUT in phase BUSY (rule R351). -/
theorem drawByte (h : MachineInv s) : MachineInv { s with draws := s.draws + 1 } where
  __ := h
  drawsMade := by
    obtain ⟨hin, hout, hne⟩ := h.drawsMade
    exact ⟨Nat.lt_succ_of_lt hin, Nat.lt_succ_of_lt hout, hne⟩

/-! ## Writes of the host in phase IDLE -/

/-- No clause speaks of IN_LEN, which may exceed IN_CAP (rule R302). -/
theorem writeInLen (h : MachineInv s) (v : Word) : MachineInv { s with inLen := v } := { h with }

/-- An accepted CMD write clears the report of the command before (rule R110). -/
theorem startCommand (h : MachineInv s) (v : Word) (hidle : s.busy = false) : MachineInv (s.startCommand v) := by
  rw [startCommand_of_idle s v hidle]
  exact
    { h with
      statusLegal := .inr (.inl rfl)
      untouched := fun hst => absurd hst (by simp [statusBusy])
      running := fun _ => ⟨rfl, rfl⟩
      succeeded := fun hst => absurd hst (by simp [statusBusy])
      failed := fun hst => absurd hst (by simp [statusBusy])
      outLenFits := Nat.zero_le _
      resultStored := fun k hk => absurd hk (Nat.not_lt_zero k) }

theorem writeIn (h : MachineInv s) {i : Nat} (b : Byte) (hi : i < s.params.inCap.toNat) :
    MachineInv { s with inBuf := s.inBuf.write i b } where
  __ := h
  inCanonical := Memory.wf_write _ i b h.inCanonical
  inBounded := fun c hc => by
    rcases mem_cellsInsert hc with rfl | hc
    · exact hi
    · exact h.inBounded c hc
  drawsMade := h.drawsMade

/-! ## The completion of a command (rule R112) -/

/-- The draw of the new OUT is the next one, so it is neither one of before nor that of IN. -/
theorem drawsMade_next (h : MachineInv s) :
    s.inBuf.draw < s.draws + 1 ∧ s.draws < s.draws + 1 ∧ s.inBuf.draw ≠ s.draws := by
  obtain ⟨hin, -, -⟩ := h.drawsMade
  exact ⟨Nat.lt_succ_of_lt hin, Nat.lt_succ_self _, Nat.ne_of_lt hin⟩

theorem deliver (h : MachineInv s) {y : List Byte} (hy : y.length ≤ outRoom s) (hcmd : ∃ i, decode s.cmd = .ok i) :
    MachineInv (s.deliver y) := by
  obtain ⟨-, houtLen, -, -, -⟩ := deliver_delivers s y (lt_of_le_of_lt hy s.params.outCap.isLt)
  exact
    { h with
      statusLegal := .inr (.inr (.inl rfl))
      untouched := fun hst => absurd hst (by simp [statusDone])
      running := fun hst => absurd hst (by simp [statusDone])
      succeeded := fun _ => ⟨rfl, hcmd⟩
      failed := fun hst => absurd hst (by simp [statusDone])
      outLenFits := houtLen.trans_le hy
      outCanonical := Memory.wf_holding s.draws y
      outBounded := fun c hc => by
        obtain ⟨-, hlt⟩ := le_of_mem_cellsFrom hc
        rw [Nat.zero_add] at hlt
        exact lt_of_lt_of_le hlt hy
      resultStored := fun k hk => by
        rw [houtLen] at hk
        rw [deliver_outBuf, Memory.stored_holding, List.getElem?_eq_getElem hk]
        rfl
      drawsMade := h.drawsMade_next }

theorem reportError (h : MachineInv s) (e : CommandError) : MachineInv (s.reportError e) where
  __ := h
  statusLegal := .inr (.inr (.inr rfl))
  untouched := fun hst => absurd hst (by simp [statusFailed])
  running := fun hst => absurd hst (by simp [statusFailed])
  succeeded := fun hst => absurd hst (by simp [statusFailed])
  failed := fun _ => ⟨rfl, e, rfl⟩
  outLenFits := Nat.zero_le _
  outCanonical := Memory.wf_drawn s.draws
  outBounded := fun _ hc => absurd hc List.not_mem_nil
  resultStored := fun k hk => absurd hk (Nat.not_lt_zero k)
  drawsMade := h.drawsMade_next

/-- The hypothesis on the outcome is what `step_cases` says of every command step. -/
theorem complete (h : MachineInv s) {r : Result}
    (hr : ∀ y, r = .ok y → y.length ≤ outRoom s ∧ ∃ i, decode s.cmd = .ok i) : MachineInv (s.complete r) := by
  cases r with
  | ok y =>
    obtain ⟨hlen, hcmd⟩ := hr y rfl
    exact h.deliver hlen hcmd
  | err e => exact h.reportError e

/-! ## Reset (rules R340 to R342) -/

theorem resetBlock (h : MachineInv s) : MachineInv s.resetBlock where
  statusLegal := .inl rfl
  untouched := fun _ => ⟨rfl, rfl, rfl⟩
  running := fun _ => ⟨rfl, rfl⟩
  succeeded := fun hst => absurd hst (by simp)
  failed := fun hst => absurd hst (by simp)
  outLenFits := Nat.zero_le _
  inCanonical := Memory.wf_drawn s.draws
  outCanonical := Memory.wf_drawn (s.draws + 1)
  inBounded := fun _ hc => absurd hc List.not_mem_nil
  outBounded := fun _ hc => absurd hc List.not_mem_nil
  resultStored := fun k hk => absurd hk (Nat.not_lt_zero k)
  drawsMade := ⟨Nat.lt_add_of_pos_right Nat.two_pos, Nat.lt_succ_self _, Nat.ne_of_lt (Nat.lt_succ_self _)⟩
  paramsLegal := h.paramsLegal

/-! ## Host accesses and steps -/

theorem hostAccess {a : Access} {t : State} {r : Reply} (h : MachineInv s)
    (ha : Machine.hostAccess a s = some (r, t)) : MachineInv t := by
  obtain ⟨sp, o, -, hat⟩ := hostAccess_eq_some ha
  rcases accessAt_cases hat with rfl | ⟨-, -, -, -, rfl⟩ | ⟨v, -, -, -, hidle, -, rfl⟩ | ⟨v, -, -, -, -, -, rfl⟩ |
    ⟨b, -, -, -, hi, -, rfl⟩
  · exact h
  · exact h.drawByte
  · exact h.startCommand v hidle
  · exact h.writeInLen v
  · exact h.writeIn b hi

end MachineInv

/-- Settles O2: the engine completes a command or lets its turn pass, the host makes an access, or the reset line acts, and
each keeps the invariant. -/
theorem everyStepKeepsMachineInvariant : Obligations.EveryStepKeepsMachineInvariant := by
  intro s t hinv hstep
  rcases step_cases hstep with ⟨r, ts, -, -, rfl, -, hr⟩ | ⟨ts, -, -, rfl⟩ | ⟨a, ts, r, u, -, ha, rfl⟩ | ⟨ts, -, rfl⟩
  · exact (hinv.withTurns ts).complete hr
  · exact hinv.withTurns ts
  · exact ((hinv.withTurns ts).hostAccess ha).record r
  · exact (hinv.withTurns ts).resetBlock

end Sys2Proof.Machine
end

section
/-! What holds along every run: the constants of the build, the values of STATUS, and who changes the buffers (rules R36, R40,
R42, R43, R44, R342 and R350). -/

namespace Sys2Proof.Machine

/-! ## The constants -/

/-- Settles O54: neither a completion, a host access nor a reset touches the parameters. -/
theorem constantsNeverChange : Obligations.ConstantsNeverChange := by
  intro s t hstep
  rcases step_cases hstep with ⟨r, ts, -, -, rfl, -, -⟩ | ⟨ts, -, -, rfl⟩ | ⟨a, ts, r, u, -, ha, rfl⟩ | ⟨ts, -, rfl⟩
  · rw [complete_params, withTurns_params]
  · exact withTurns_params s ts
  · obtain ⟨hparams, -⟩ := hostAccess_frame ha
    rw [record_params, hparams, withTurns_params]
  · rw [resetBlock_params, withTurns_params]

/-! ## Runs -/

/-- A run of `n + 1` steps that answers a next state is a step and a run of `n` from there. -/
theorem coreRun_succ {M : Host.Core} {n : Nat} {s t : M.State} (h : M.run (n + 1) s = .next t) :
    ∃ u, M.step s = .next u ∧ M.run n u = .next t := by
  unfold Host.Core.run at h
  split at h
  · exact ⟨_, ‹_›, h⟩
  · cases h
  · cases h

/-- What every step keeps holds after every run. -/
theorem run_preserves {P : State → Prop} (keeps : ∀ s t, P s → step s = .next t → P t) {n : Nat} {s t : State} (hs : P s)
    (hrun : Sys2Proof.core.run n s = .next t) : P t := by
  induction n generalizing s with
  | zero => exact Host.Outcome.next.inj hrun ▸ hs
  | succ n ih =>
    obtain ⟨u, hstep, hrest⟩ := coreRun_succ hrun
    exact ih (keeps s u hs hstep) hrest

theorem machineInv_of_run_from_reset {ts : List Turn} {n : Nat} {t : State}
    (hrun : Sys2Proof.core.run n (State.reset.withTurns ts) = .next t) : MachineInv t :=
  run_preserves everyStepKeepsMachineInvariant (resetSatisfiesMachineInvariant.withTurns ts) hrun

/-- In each of the four values of STATUS, BUSY excludes DONE and ERR, and ERR goes with DONE. -/
theorem MachineInv.flags {s : State} (h : MachineInv s) :
    (s.busy = true → s.done = false ∧ s.failed = false) ∧ (s.failed = true → s.done = true) := by
  unfold State.busy State.done State.failed
  rcases h.statusLegal with hst | hst | hst | hst <;> rw [hst] <;> decide

/-- Settles O55: the reset state meets the invariant and every step keeps it. -/
theorem onlyFourStatusValuesOccur : Obligations.OnlyFourStatusValuesOccur := by
  intro ts n t hrun
  have hinv := machineInv_of_run_from_reset hrun
  exact ⟨hinv.statusLegal, hinv.flags⟩

/-! ## The buffers -/

/-- The only access that touches IN is the write of a byte inside the space in phase IDLE (rules R72 and R350). -/
theorem hostAccess_inBuf {a : Access} {s t : State} {r : Reply} (h : hostAccess a s = some (r, t)) :
    t.inBuf = s.inBuf ∨
    ∃ o b, locate s.params a.target = some (.input, o) ∧ a.op = .write8 b ∧ s.busy = false ∧
      o < s.params.inCap.toNat ∧ t.inBuf = s.inBuf.write o b := by
  obtain ⟨sp, o, hloc, hat⟩ := hostAccess_eq_some h
  rcases accessAt_cases hat with rfl | ⟨-, -, -, -, rfl⟩ | ⟨v, -, -, -, -, -, rfl⟩ | ⟨v, -, -, -, -, -, rfl⟩ |
    ⟨b, rfl, hop, hidle, ho, -, rfl⟩
  · exact .inl rfl
  · exact .inl rfl
  · exact .inl (startCommand_inBuf s v)
  · exact .inl rfl
  · exact .inr ⟨o, b, hloc, hop, hidle, ho, rfl⟩

/-- Settles O56: a completion leaves IN as it is, and a write of another byte does not change the one at `i`. -/
theorem inputBytesChangeOnlyWhenWritten : Obligations.InputBytesChangeOnlyWhenWritten := by
  intro s t i hwf hstep hne
  rcases step_cases hstep with ⟨r, ts, -, -, rfl, -, -⟩ | ⟨ts, -, -, rfl⟩ | ⟨a, ts, r, u, hts, ha, rfl⟩ | ⟨ts, hts, -⟩
  · rw [complete_inBuf, withTurns_inBuf] at hne
    exact absurd rfl hne
  · exact absurd rfl hne
  · rw [record_inBuf] at hne ⊢
    rcases hostAccess_inBuf ha with hkeep | ⟨o, b, hloc, hop, hidle, ho, hwrite⟩
    · rw [hkeep] at hne
      exact absurd rfl hne
    · rw [withTurns_inBuf] at hwrite
      have hio : i = o := by
        by_contra hio
        rw [hwrite, Memory.read_write _ _ _ _ hwf, if_neg hio] at hne
        exact hne rfl
      subst hio
      refine .inr ⟨hidle, ho, a, b, ts, hts, hloc, hop, ?_⟩
      rw [hwrite, Memory.read_write _ _ _ _ hwf, if_pos rfl]
  · exact .inl ⟨ts, hts⟩

/-- Settles O57: no host access touches OUT, so a step that changes it without a reset is the command step. -/
theorem outputChangesOnlyAtTheCommandStep : Obligations.OutputChangesOnlyAtTheCommandStep := by
  intro s t hstep hne
  rcases step_cases hstep with ⟨r, ts, hts, hbusy, rfl, hcommand, -⟩ | ⟨ts, -, -, rfl⟩ | ⟨a, ts, r, u, -, ha, rfl⟩ |
    ⟨ts, hts, -⟩
  · exact .inr ⟨hbusy, complete_busy _ r, ts, hts, hcommand⟩
  · exact absurd rfl hne
  · obtain ⟨-, -, -, hout⟩ := hostAccess_frame ha
    exact absurd hout hne
  · exact .inl ⟨ts, hts⟩

end Sys2Proof.Machine
end

section
/-! Host accesses and the secret constants: an access neither depends on KEY and IV nor changes them (rule R42). -/

namespace Sys2Proof.Machine

/-- The block built with another KEY and IV. -/
def State.withSecrets (s : State) (key iv : Block) : State := { s with params := { s.params with key := key, iv := iv } }

section

variable (s : State) (key iv : Block)

/-! ## What does not see KEY and IV -/

@[simp] theorem withSecrets_busy : (s.withSecrets key iv).busy = s.busy := rfl

@[simp] theorem withSecrets_inBuf : (s.withSecrets key iv).inBuf = s.inBuf := rfl

@[simp] theorem withSecrets_outBuf : (s.withSecrets key iv).outBuf = s.outBuf := rfl

@[simp] theorem withSecrets_draws : (s.withSecrets key iv).draws = s.draws := rfl

@[simp] theorem withSecrets_inCap : (s.withSecrets key iv).params.inCap = s.params.inCap := rfl

@[simp] theorem withSecrets_outCap : (s.withSecrets key iv).params.outCap = s.params.outCap := rfl

@[simp] theorem locate_withSecrets (a : Target) : locate (s.withSecrets key iv).params a = locate s.params a := by
  cases a <;> rfl

theorem withSecrets_readReg (r : Reg) : (s.withSecrets key iv).readReg r = s.readReg r := by
  cases r <;> rfl

/-! ## What commutes with another KEY and IV -/

theorem withSecrets_startCommand (v : Word) :
    (s.withSecrets key iv).startCommand v = (s.startCommand v).withSecrets key iv := by
  cases hb : s.busy with
  | true => rw [startCommand_of_busy s v hb, startCommand_of_busy (s.withSecrets key iv) v hb]
  | false => rw [startCommand_of_idle s v hb, startCommand_of_idle (s.withSecrets key iv) v hb]; rfl

theorem withSecrets_writeInLen (v : Word) :
    (s.withSecrets key iv).writeInLen v = (s.writeInLen v).withSecrets key iv := by
  cases hb : s.busy with
  | true => rw [writeInLen_of_busy s v hb, writeInLen_of_busy (s.withSecrets key iv) v hb]
  | false => rw [writeInLen_of_idle s v hb, writeInLen_of_idle (s.withSecrets key iv) v hb]; rfl

theorem withSecrets_writeReg (r : Reg) (v : Word) :
    (s.withSecrets key iv).writeReg r v = (s.writeReg r v).withSecrets key iv := by
  cases r
  case cmd => exact withSecrets_startCommand s key iv v
  case inLen => exact withSecrets_writeInLen s key iv v
  all_goals rfl

@[simp] theorem regRead_withSecrets (o : Nat) : regRead o (s.withSecrets key iv) = regRead o s :=
  congrArg (Option.map · (regAt o)) (funext (withSecrets_readReg s key iv))

@[simp] theorem regWrite_withSecrets (o : Nat) (v : Word) :
    regWrite o v (s.withSecrets key iv) = (regWrite o v s).map (·.withSecrets key iv) := by
  simp only [regWrite, withSecrets_writeReg, Option.map_map, Function.comp_def]

@[simp] theorem inRead_withSecrets (i : Nat) : inRead i (s.withSecrets key iv) = inRead i s := rfl

@[simp] theorem inWrite_withSecrets (i : Nat) (b : Byte) :
    inWrite i b (s.withSecrets key iv) = (inWrite i b s).map (·.withSecrets key iv) := by
  by_cases hi : i < s.params.inCap.toNat
  · cases hb : s.busy with
    | true => simp [inWrite, hi, hb]
    | false => simp only [inWrite, withSecrets_inCap, withSecrets_busy, withSecrets_inBuf, hi, hb, if_true, Bool.false_eq_true,
        if_false]; rfl
  · simp [inWrite, hi]

@[simp] theorem outRead_withSecrets (i : Nat) :
    outRead i (s.withSecrets key iv) = (outRead i s).map fun r => (r.1, r.2.withSecrets key iv) := by
  by_cases hi : i < s.params.outCap.toNat
  · cases hb : s.busy with
    | true => simp only [outRead, withSecrets_outCap, withSecrets_busy, withSecrets_draws, hi, hb, if_true]; rfl
    | false => simp [outRead, hi, hb]
  · simp [outRead, hi]

@[simp] theorem outWrite_withSecrets (i : Nat) (b : Byte) :
    outWrite i b (s.withSecrets key iv) = (outWrite i b s).map (·.withSecrets key iv) := by
  by_cases hi : i < s.params.outCap.toNat <;> simp [outWrite, hi]

/-! ## Accesses -/

/-- Every row of the table of accesses refuses, or is one of the six operations above. -/
theorem accessAt_withSecrets (sp : Space) (o : Nat) (op : AccessOp) :
    accessAt sp o op (s.withSecrets key iv) = (accessAt sp o op s).map fun r => (r.1, r.2.withSecrets key iv) := by
  cases sp <;> cases op <;> simp [accessAt, Function.comp_def]

theorem hostAccess_withSecrets (a : Access) :
    hostAccess a (s.withSecrets key iv) = (hostAccess a s).map fun r => (r.1, r.2.withSecrets key iv) := by
  simp only [hostAccess, locate_withSecrets]
  cases locate s.params a.target with
  | none => rfl
  | some place => exact accessAt_withSecrets s key iv place.1 place.2 a.op

end

/-- Settles O50: the access commutes with another KEY and IV, and leaves the parameters of the block as they are. -/
theorem hostAccessesDoNotSeeTheKey : Obligations.HostAccessesDoNotSeeTheKey := by
  intro a s key iv
  calc hostAccess a (s.withSecrets key iv)
      = (hostAccess a s).map fun r => (r.1, r.2.withSecrets key iv) := hostAccess_withSecrets s key iv a
    _ = (hostAccess a s).map fun r => (r.1, { r.2 with params := { s.params with key := key, iv := iv } }) := by
      refine Option.map_congr fun r hr => ?_
      obtain ⟨hparams, -⟩ := hostAccess_frame hr
      rw [State.withSecrets, hparams]

end Sys2Proof.Machine
end

section
/-! The bus windows: an address lies in at most one of them, the one `locate` finds (rules R70 and R71). -/

namespace Sys2Proof.Machine

theorem windowsApart_iff {a n b m : Nat} : windowsApart a n b m = true ↔ a + n ≤ b ∨ b + m ≤ a := by
  simp [windowsApart]

theorem windowHit_iff {p : Params} {a : Nat} {sp : Space} :
    windowHit p a sp = true ↔ spaceBase p sp ≤ a ∧ a < spaceBase p sp + spaceSize p sp := by
  simp [windowHit]

theorem windowHit_eq_false_iff {p : Params} {a : Nat} {sp : Space} :
    windowHit p a sp = false ↔ a < spaceBase p sp ∨ spaceBase p sp + spaceSize p sp ≤ a := by
  rw [← Bool.not_eq_true, windowHit_iff]
  omega

/-- `Params.placed` for any two spaces, in either order. -/
theorem spaces_apart {p : Params} (h : p.placed = true) {sp sp' : Space} (hne : sp ≠ sp') :
    spaceBase p sp + spaceSize p sp ≤ spaceBase p sp' ∨ spaceBase p sp' + spaceSize p sp' ≤ spaceBase p sp := by
  simp only [Params.placed, Bool.and_eq_true, windowsApart_iff] at h
  obtain ⟨⟨hregIn, hregOut⟩, hinOut⟩ := h
  cases sp <;> cases sp' <;> simp only [spaceBase, spaceSize]
  case reg.reg | input.input | output.output => exact absurd rfl hne
  case reg.input => exact hregIn
  case reg.output => exact hregOut
  case input.output => exact hinOut
  case input.reg => exact hregIn.symm
  case output.reg => exact hregOut.symm
  case output.input => exact hinOut.symm

theorem windowHit_unique {p : Params} (h : p.placed = true) {a : Nat} {sp sp' : Space} (hsp : windowHit p a sp = true)
    (hsp' : windowHit p a sp' = true) : sp = sp' := by
  by_contra hne
  have hapart := spaces_apart h hne
  rw [windowHit_iff] at hsp hsp'
  omega

/-- `locate` tries the windows one after another; when they do not overlap, the order does not matter. -/
theorem locate_bus_of_hit {p : Params} (h : p.placed = true) {a : Nat} {sp : Space} (hit : windowHit p a sp = true) :
    locate p (.bus a) = some (sp, a - spaceBase p sp) := by
  have miss : ∀ sp', sp' ≠ sp → windowHit p a sp' = false := fun sp' hne =>
    Bool.eq_false_iff.mpr fun hit' => hne (windowHit_unique h hit' hit)
  cases sp with
  | reg => simp [locate, hit, spaceBase]
  | input => simp [locate, hit, miss .reg, spaceBase]
  | output => simp [locate, hit, miss .reg, miss .input, spaceBase]

theorem locate_bus_of_miss {p : Params} {a : Nat} (miss : ∀ sp, windowHit p a sp = false) : locate p (.bus a) = none := by
  simp [locate, miss]

/-- Settles O51: the conditions are those of a hit and of a miss of each window. -/
theorem busAddressesReachTheirWindow : Obligations.BusAddressesReachTheirWindow := by
  intro p hplaced
  refine ⟨fun sp a hlow hhigh => ?_, fun a hout => ?_⟩
  · exact locate_bus_of_hit hplaced (windowHit_iff.mpr ⟨hlow, hhigh⟩)
  · exact locate_bus_of_miss fun sp => windowHit_eq_false_iff.mpr (hout sp)

end Sys2Proof.Machine
end

section
/-! The register accesses: what stands at each offset, and what a read and a write do there (rules R34, R36, R39, R73 and
R74). -/

namespace Sys2Proof.Machine

/-! ## The offsets of the register map (rule R34) -/

/-- The seven registers stand at the multiples of 4 up to 0x18. -/
@[simp] theorem regAt_isSome (o : Nat) : (regAt o).isSome = (decide (o % 4 = 0) && decide (o ≤ 0x18)) := by
  by_cases hbound : o ≤ 0x18
  · interval_cases o <;> rfl
  · have hnone : regAt o = none := by
      cases hr : regAt o with
      | none => rfl
      | some r =>
        rw [regAt_eq_some] at hr
        cases r <;> exact absurd hr (by simp only [Reg.offset]; omega)
    simp [hnone, hbound]

theorem regAt_eq_none {o : Nat} (h : ¬ (o % 4 = 0 ∧ o ≤ 0x18)) : regAt o = none := by
  rw [← Option.isSome_eq_false_iff.trans Option.isNone_iff_eq_none, regAt_isSome, ← Bool.decide_and]
  exact decide_eq_false h

theorem exists_offset {o : Nat} (halign : o % 4 = 0) (hbound : o ≤ 0x18) : ∃ r, o = Reg.offset r := by
  obtain ⟨r, hr⟩ := Option.isSome_iff_exists.mp ((regAt_isSome o).trans (by simp [halign, hbound]))
  exact ⟨r, regAt_eq_some.mp hr⟩

/-! ## Reads and writes at an offset of the map (rule R73) -/

theorem regRead_offset (r : Reg) (s : State) : regRead (Reg.offset r) s = some (s.readReg r) := by
  rw [regRead, regAt_offset, Option.map_some]

theorem regWrite_offset (r : Reg) (v : Word) (s : State) : regWrite (Reg.offset r) v s = some (s.writeReg r v) := by
  rw [regWrite, regAt_offset, Option.map_some]

@[simp] theorem regRead_isSome (o : Nat) (s : State) :
    (regRead o s).isSome = (decide (o % 4 = 0) && decide (o ≤ 0x18)) := by
  rw [regRead, Option.isSome_map, regAt_isSome]

@[simp] theorem regWrite_isSome (o : Nat) (v : Word) (s : State) :
    (regWrite o v s).isSome = (decide (o % 4 = 0) && decide (o ≤ 0x18)) := by
  rw [regWrite, Option.isSome_map, regAt_isSome]

/-- Every register but CMD and IN_LEN is read-only (rule R74). -/
theorem writeReg_readOnly {r : Reg} (hcmd : r ≠ .cmd) (hinLen : r ≠ .inLen) (s : State) (v : Word) : s.writeReg r v = s := by
  cases r
  case cmd => exact absurd rfl hcmd
  case inLen => exact absurd rfl hinLen
  all_goals rfl

theorem regWrite_readOnly {r : Reg} (hcmd : r ≠ .cmd) (hinLen : r ≠ .inLen) (s : State) (v : Word) :
    regWrite (Reg.offset r) v s = some s := by
  rw [regWrite_offset, writeReg_readOnly hcmd hinLen]

/-! ## The registers with bits that always read 0 (rules R36 and R39) -/

theorem MachineInv.status_masked {s : State} (h : MachineInv s) : s.status &&& statusMask = s.status := by
  rcases h.statusLegal with hst | hst | hst | hst <;> rw [hst] <;> rfl

theorem CommandError.code_masked (e : CommandError) : e.code &&& errCauseMask = e.code := by
  cases e <;> rfl

theorem MachineInv.errCause_masked {s : State} (h : MachineInv s) : s.errCause &&& errCauseMask = s.errCause := by
  have hlegal : s.errCause = 0 ∨ ∃ e : CommandError, s.errCause = e.code := by
    rcases h.statusLegal with hst | hst | hst | hst
    · obtain ⟨-, -, hclear⟩ := h.untouched hst
      exact .inl hclear
    · obtain ⟨-, hclear⟩ := h.running hst
      exact .inl hclear
    · obtain ⟨hclear, -⟩ := h.succeeded hst
      exact .inl hclear
    · obtain ⟨-, hcode⟩ := h.failed hst
      exact .inr hcode
  rcases hlegal with hclear | ⟨e, he⟩
  · rw [hclear]
    rfl
  · rw [he, CommandError.code_masked]

/-- Settles O45, register by register: the offsets are those of the map, and the invariant gives the bits that always read 0. -/
theorem registerAccessesByOffset : Obligations.RegisterAccessesByOffset := by
  refine ⟨fun s hinv => ?_, fun s o v b => ?_⟩
  · have hstatus := regRead_offset .status s
    have herrCause := regRead_offset .errCause s
    rw [State.readReg, hinv.status_masked] at hstatus
    rw [State.readReg, hinv.errCause_masked] at herrCause
    exact ⟨regRead_offset .cmd s, hstatus, regRead_offset .inLen s, regRead_offset .outLen s, herrCause,
      regRead_offset .inCap s, regRead_offset .outCap s⟩
  · refine ⟨fun hout => ?_, fun halign hbound hcmd hinLen => ?_, regWrite_offset .cmd v s, fun hidle => ?_, fun hbusy => ?_,
      rfl, rfl, rfl, rfl, rfl⟩
    · simp only [regRead, regWrite, regAt_eq_none hout, Option.map_none, and_self]
    · obtain ⟨r, rfl⟩ := exists_offset halign hbound
      exact regWrite_readOnly (fun h => hcmd (congrArg Reg.offset h)) (fun h => hinLen (congrArg Reg.offset h)) s v
    · exact (regWrite_offset .inLen v s).trans (congrArg some (writeInLen_of_idle s v hidle))
    · exact (regWrite_offset .inLen v s).trans (congrArg some (writeInLen_of_busy s v hbusy))

end Sys2Proof.Machine
end

section
/-! The buffer accesses: what the four operations answer inside and outside their space, in both phases (rules R72, R74, R350
and R351). -/

namespace Sys2Proof.Machine

section

variable {s : State} {i : Nat}

/-! ## IN -/

theorem inRead_of_lt (h : i < s.params.inCap.toNat) : inRead i s = some (s.inBuf.read i) := if_pos h

theorem inRead_of_le (h : s.params.inCap.toNat ≤ i) : inRead i s = none := if_neg (Nat.not_lt.mpr h)

theorem inWrite_of_busy (h : i < s.params.inCap.toNat) (hbusy : s.busy = true) (b : Byte) : inWrite i b s = some s := by
  simp [inWrite, h, hbusy]

theorem inWrite_of_idle (h : i < s.params.inCap.toNat) (hidle : s.busy = false) (b : Byte) :
    inWrite i b s = some { s with inBuf := s.inBuf.write i b } := by
  simp [inWrite, h, hidle]

theorem inWrite_of_le (h : s.params.inCap.toNat ≤ i) (b : Byte) : inWrite i b s = none := if_neg (Nat.not_lt.mpr h)

/-! ## OUT -/

theorem outRead_of_idle (h : i < s.params.outCap.toNat) (hidle : s.busy = false) :
    outRead i s = some (s.outBuf.read i, s) := by
  simp [outRead, h, hidle]

theorem outRead_of_busy (h : i < s.params.outCap.toNat) (hbusy : s.busy = true) :
    outRead i s = some (Config.freeByte s.draws i, { s with draws := s.draws + 1 }) := by
  simp [outRead, h, hbusy]

theorem outRead_of_le (h : s.params.outCap.toNat ≤ i) : outRead i s = none := if_neg (Nat.not_lt.mpr h)

theorem outWrite_of_lt (h : i < s.params.outCap.toNat) (b : Byte) : outWrite i b s = some s := if_pos h

theorem outWrite_of_le (h : s.params.outCap.toNat ≤ i) (b : Byte) : outWrite i b s = none := if_neg (Nat.not_lt.mpr h)

/-! ## Which indexes are inside -/

@[simp] theorem inRead_isSome (i : Nat) (s : State) : (inRead i s).isSome = decide (i < s.params.inCap.toNat) := by
  unfold inRead
  split <;> simp [*]

@[simp] theorem inWrite_isSome (i : Nat) (b : Byte) (s : State) :
    (inWrite i b s).isSome = decide (i < s.params.inCap.toNat) := by
  unfold inWrite
  split <;> simp [*]

@[simp] theorem outRead_isSome (i : Nat) (s : State) : (outRead i s).isSome = decide (i < s.params.outCap.toNat) := by
  unfold outRead
  split
  · split <;> simp [*]
  · simp [*]

@[simp] theorem outWrite_isSome (i : Nat) (b : Byte) (s : State) :
    (outWrite i b s).isSome = decide (i < s.params.outCap.toNat) := by
  unfold outWrite
  split <;> simp [*]

end

/-! ## The same as accesses -/

theorem accessAt_read_input (i : Nat) (s : State) :
    accessAt .input i .read8 s = (inRead i s).map fun b => (.byte b, s) := rfl

theorem accessAt_write_input (i : Nat) (b : Byte) (s : State) :
    accessAt .input i (.write8 b) s = (inWrite i b s).map fun t => (.written, t) := rfl

theorem accessAt_read_output (i : Nat) (s : State) :
    accessAt .output i .read8 s = (outRead i s).map fun r => (.byte r.1, r.2) := rfl

theorem accessAt_write_output (i : Nat) (b : Byte) (s : State) :
    accessAt .output i (.write8 b) s = (outWrite i b s).map fun t => (.written, t) := rfl

theorem accessAt_write_reg (o : Nat) (v : Word) (s : State) :
    accessAt .reg o (.write32 v) s = (regWrite o v s).map fun t => (.written, t) := rfl

/-- Settles O46, operation by operation, inside and outside the space and in both phases; the other widths have no row in the
table of accesses. -/
theorem bufferAccessesByIndex : Obligations.BufferAccessesByIndex := by
  intro s i b v
  simp only [accessAt_read_input, accessAt_write_input, accessAt_read_output, accessAt_write_output]
  refine ⟨fun hin => ⟨?_, fun hbusy => ?_, fun hidle hwf => ?_⟩, fun hin => ⟨?_, ?_⟩,
    fun hout => ⟨fun hidle => ?_, fun hbusy => ?_, ?_⟩, fun hout => ⟨?_, ?_⟩, rfl, rfl, rfl, rfl, rfl, rfl⟩
  · rw [inRead_of_lt hin, Option.map_some]
  · rw [inWrite_of_busy hin hbusy, Option.map_some]
  · refine ⟨s.inBuf.write i b, ?_, Memory.wf_write _ i b hwf, fun a => Memory.read_write _ i a b hwf⟩
    rw [inWrite_of_idle hin hidle, Option.map_some]
  · rw [inRead_of_le hin, Option.map_none]
  · rw [inWrite_of_le hin, Option.map_none]
  · rw [outRead_of_idle hout hidle, Option.map_some]
  · rw [outRead_of_busy hout hbusy, Option.map_some]
  · rw [outWrite_of_lt hout, Option.map_some]
  · rw [outRead_of_le hout, Option.map_none]
  · rw [outWrite_of_le hout, Option.map_none]

/-- Settles O48: the five registers are the read-only ones, and no byte of OUT takes a write. -/
theorem readOnlyWritesChangeNothing : Obligations.ReadOnlyWritesChangeNothing := by
  intro s v b
  have register : ∀ r : Reg, r ≠ .cmd → r ≠ .inLen → accessAt .reg (Reg.offset r) (.write32 v) s = some (.written, s) := by
    intro r hcmd hinLen
    rw [accessAt_write_reg, regWrite_readOnly hcmd hinLen, Option.map_some]
  have output : ∀ i, i < s.params.outCap.toNat → accessAt .output i (.write8 b) s = some (.written, s) := by
    intro i hi
    rw [accessAt_write_output, outWrite_of_lt hi, Option.map_some]
  refine ⟨register .status ?_ ?_, register .outLen ?_ ?_, register .errCause ?_ ?_, register .inCap ?_ ?_,
    register .outCap ?_ ?_, output⟩
  all_goals exact Reg.noConfusion

end Sys2Proof.Machine
end

section
/-! Host accesses and the host's step: which accesses are refused, and what a read leaves (rules R73, R75, R81, R306 and
R351). -/

namespace Sys2Proof.Machine

/-! ## The accesses that are refused (rule R75) -/

/-- An access is answered exactly when it is none of those rule R75 refuses. -/
theorem accessAt_isSome (sp : Space) (o : Nat) (op : AccessOp) (s : State) :
    (accessAt sp o op s).isSome = acceptedAt s.params sp o op := by
  cases sp with
  | reg => cases op <;> simp [accessAt, acceptedAt, wide32]
  | input => cases op <;> simp [accessAt, acceptedAt, wide8]
  | output => cases op <;> simp [accessAt, acceptedAt, wide8]

theorem hostAccess_isSome (a : Access) (s : State) : (hostAccess a s).isSome = accepted s.params a := by
  unfold hostAccess accepted
  cases locate s.params a.target with
  | none => rfl
  | some place => exact accessAt_isSome place.1 place.2 a.op s

theorem hostAccess_eq_none_iff {a : Access} {s : State} : hostAccess a s = none ↔ accepted s.params a = false := by
  rw [← hostAccess_isSome, Option.isSome_eq_false_iff, Option.isNone_iff_eq_none]

theorem hostAccess_of_accepted {a : Access} {s : State} (h : accepted s.params a = true) :
    ∃ r t, hostAccess a s = some (r, t) := by
  rw [← hostAccess_isSome] at h
  obtain ⟨⟨r, t⟩, hrt⟩ := Option.isSome_iff_exists.mp h
  exact ⟨r, t, hrt⟩

/-! ## The steps, by the turn that comes next -/

theorem step_host {s : State} {a : Access} {ts : List Turn} (h : s.turns = .host a :: ts) :
    step s = hostTurn a (s.withTurns ts) := by
  rw [step, takeTurn, h]

theorem step_no_turns {s : State} (h : s.turns = []) (hbusy : s.busy = true) : step s = engineStep s := by
  rw [step, takeTurn, h, engineTurn, if_pos hbusy]

theorem hostTurn_refused {a : Access} {s : State} (h : accepted s.params a = false) : hostTurn a s = .fault .busError := by
  rw [hostTurn, hostAccess_eq_none_iff.mpr h]

theorem hostTurn_answered {a : Access} {s t : State} {r : Reply} (h : hostAccess a s = some (r, t)) :
    hostTurn a s = .next (t.record r) := by
  rw [hostTurn, h]

/-- Settles O47: an access has an answer exactly when it is accepted, and the host's turn faults exactly when it has none. -/
theorem busErrorExactlyWhenRefused : Obligations.BusErrorExactlyWhenRefused := by
  refine fun a s => ⟨hostAccess_eq_none_iff, fun ts hts => ⟨fun hrefused => ?_, fun haccepted => ?_⟩⟩
  · exact (step_host hts).trans (hostTurn_refused (s := s.withTurns ts) hrefused)
  · obtain ⟨r, t, hrt⟩ := hostAccess_of_accepted (s := s.withTurns ts) haccepted
    exact ⟨t.record r, (step_host hts).trans (hostTurn_answered hrt)⟩

/-- Settles O49: of what an access can do, the writes are no reads, and a byte is drawn in phase BUSY only. -/
theorem readsHaveNoSideEffect : Obligations.ReadsHaveNoSideEffect := by
  intro a s t r hread ha
  obtain ⟨sp, o, -, hat⟩ := hostAccess_eq_some ha
  rcases accessAt_cases hat with rfl | ⟨-, -, hbusy, -, rfl⟩ | ⟨v, -, -, hop, -⟩ | ⟨v, -, -, hop, -⟩ | ⟨b, -, hop, -⟩
  · exact ⟨fun _ => rfl, .inl rfl⟩
  · exact ⟨fun hidle => absurd hbusy (by simp [hidle]), .inr rfl⟩
  all_goals
    rw [hop] at hread
    exact absurd hread Bool.false_ne_true

end Sys2Proof.Machine
end

section
/-! The host and a started command: accepted accesses move nothing but the model's own fields before the command step, and the
command step does not see those (rules R85, R88, R111, R112 and R350). -/

namespace Sys2Proof.Machine

/-! ## Runs of given steps -/

theorem coreRun_succ_of_step {M : Host.Core} {s u : M.State} (h : M.step s = .next u) (n : Nat) :
    M.run (n + 1) s = M.run n u := by
  rw [Host.Core.run, h]

theorem run_succ_of_step {s u : State} (h : step s = .next u) (n : Nat) :
    Sys2Proof.core.run (n + 1) s = Sys2Proof.core.run n u :=
  coreRun_succ_of_step (M := Sys2Proof.core) (s := s) (u := u) h n

/-- A run of `n` steps that answers a next state, followed by `k` more. -/
theorem coreRun_add {M : Host.Core} {n : Nat} {s u : M.State} (h : M.run n s = .next u) (k : Nat) :
    M.run (n + k) s = M.run k u := by
  induction n generalizing s with
  | zero => rw [Nat.zero_add, Host.Outcome.next.inj h]
  | succ n ih =>
    obtain ⟨t, hstep, hrest⟩ := coreRun_succ h
    rw [Nat.succ_add, coreRun_succ_of_step hstep, ih hrest]

/-! ## The model's own fields (log entries 1, 4 and 6) -/

/-- The block with other draws made, turns to come and replies given. -/
def State.withOwnFields (s : State) (d : Nat) (ts : List Turn) (rs : List Reply) : State :=
  { s with draws := d, turns := ts, replies := rs }

@[simp] theorem withOwnFields_turns (s : State) (d : Nat) (ts : List Turn) (rs : List Reply) :
    (s.withOwnFields d ts rs).turns = ts := rfl

@[simp] theorem withOwnFields_busy (s : State) (d : Nat) (ts : List Turn) (rs : List Reply) :
    (s.withOwnFields d ts rs).busy = s.busy := rfl

@[simp] theorem withOwnFields_inBuf (s : State) (d : Nat) (ts : List Turn) (rs : List Reply) :
    (s.withOwnFields d ts rs).inBuf = s.inBuf := rfl

@[simp] theorem withOwnFields_cmd (s : State) (d : Nat) (ts : List Turn) (rs : List Reply) :
    (s.withOwnFields d ts rs).cmd = s.cmd := rfl

@[simp] theorem withOwnFields_inLen (s : State) (d : Nat) (ts : List Turn) (rs : List Reply) :
    (s.withOwnFields d ts rs).inLen = s.inLen := rfl

@[simp] theorem withOwnFields_params (s : State) (d : Nat) (ts : List Turn) (rs : List Reply) :
    (s.withOwnFields d ts rs).params = s.params := rfl

@[simp] theorem withOwnFields_input (s : State) (d : Nat) (ts : List Turn) (rs : List Reply) :
    (s.withOwnFields d ts rs).input = s.input := rfl

/-! ## Accepted accesses in phase BUSY (rule R350) -/

/-- One accepted access takes its turn, gets its reply and may draw a byte. -/
theorem step_accepted_of_busy {s : State} {a : Access} (ts : List Turn) (hbusy : s.busy = true)
    (ha : accepted s.params a = true) :
    ∃ d rs, step (s.withTurns (.host a :: ts)) = .next (s.withOwnFields d ts rs) := by
  obtain ⟨r, u, hu⟩ := hostAccess_of_accepted (s := s.withTurns ts) ha
  have hstep : step (s.withTurns (.host a :: ts)) = .next (u.record r) := (step_host rfl).trans (hostTurn_answered hu)
  rcases hostAccess_of_busy (s := s.withTurns ts) hbusy hu with rfl | rfl
  · exact ⟨s.draws, r :: s.replies, hstep⟩
  · exact ⟨s.draws + 1, r :: s.replies, hstep⟩

/-- The same for a list of them, whatever turns come after. -/
theorem run_accepted_of_busy {s : State} {accesses : List Access} (ts : List Turn) (hbusy : s.busy = true)
    (haccepted : ∀ a ∈ accesses, accepted s.params a = true) :
    ∃ d rs, Sys2Proof.core.run accesses.length (s.withTurns (accesses.map Turn.host ++ ts)) =
      .next (s.withOwnFields d ts rs) := by
  induction accesses generalizing s with
  | nil => exact ⟨s.draws, s.replies, rfl⟩
  | cons a as ih =>
    rw [List.forall_mem_cons] at haccepted
    obtain ⟨ha, has⟩ := haccepted
    obtain ⟨d, rs, hstep⟩ := step_accepted_of_busy (as.map Turn.host ++ ts) hbusy ha
    obtain ⟨d', rs', hrun⟩ := ih (s := s.withOwnFields d s.turns rs) hbusy has
    exact ⟨d', rs', (run_succ_of_step hstep as.length).trans hrun⟩

/-! ## What the command step depends on (rules R111 and R112) -/

theorem outcome_congr {s u : State} (hlen : u.inLen = s.inLen) (hparams : u.params = s.params) (hinput : u.input = s.input)
    (f : List Byte → Result) : u.outcome f = s.outcome f := by
  simp only [State.outcome, hlen, hparams, hinput]

/-- The command step completes with one outcome from all states that agree on CMD, IN_LEN, the constants and the input. -/
theorem engineStep_congr {s u : State} (hcmd : u.cmd = s.cmd) (hlen : u.inLen = s.inLen) (hparams : u.params = s.params)
    (hinput : u.input = s.input) :
    ∃ r, engineStep s = .next (s.complete r) ∧ engineStep u = .next (u.complete r) ∧ ∀ y, r = .ok y → y.length ≤ outRoom s := by
  unfold engineStep
  rw [hcmd]
  cases decode s.cmd with
  | ok i =>
    refine ⟨s.outcome (codecByOp s.params i.op.toNat), exec_eq i s, ?_, fun y hy => length_of_outcome_ok hy⟩
    rw [← outcome_congr hlen hparams hinput, ← hparams]
    exact exec_eq i u
  | error e => exact ⟨.err (illegalError e), rfl, rfl, fun y hy => Result.noConfusion hy⟩

/-- A completion shows the result that rule R345 observes, and nothing of the state before it. -/
theorem observe_complete_congr {s u : State} {r : Result} (hfits : ∀ y, r = .ok y → y.length ≤ outRoom s) :
    observe (u.complete r) = observe (s.complete r) := by
  cases r with
  | ok y =>
    have hlt : y.length < 2 ^ 32 := lt_of_le_of_lt (hfits y rfl) s.params.outCap.isLt
    obtain ⟨-, -, -, hs, -⟩ := deliver_delivers s y hlt
    obtain ⟨-, -, -, hu, -⟩ := deliver_delivers u y hlt
    simp only [observe, complete_ok, hs, hu, deliver_status, deliver_outLen, deliver_errCause]
  | err e => rfl

@[simp] theorem complete_cmd (s : State) (r : Result) : (s.complete r).cmd = s.cmd := by cases r <;> rfl

@[simp] theorem complete_inLen (s : State) (r : Result) : (s.complete r).inLen = s.inLen := by cases r <;> rfl

/-- Settles O59: the accesses leave CMD, IN_LEN, IN and the constants as they were, and the command step depends on nothing
else. -/
theorem hostAccessesDoNotDisturbACommand : Obligations.HostAccessesDoNotDisturbACommand := by
  intro s accesses hbusy haccepted
  obtain ⟨d, rs, hrun⟩ := run_accepted_of_busy [] hbusy haccepted
  rw [List.append_nil] at hrun
  obtain ⟨r, hnow, hlater, hfits⟩ :=
    engineStep_congr (withOwnFields_cmd s d [] rs) (withOwnFields_inLen ..) (withOwnFields_params ..) (withOwnFields_input ..)
  have hlast := (step_no_turns (withOwnFields_turns s d [] rs) hbusy).trans hlater
  refine ⟨(s.withOwnFields d [] rs).complete r, s.complete r, ?_, hnow, observe_complete_congr hfits, ?_, ?_, ?_⟩
  · exact (coreRun_add hrun 1).trans (run_succ_of_step hlast 0)
  · rw [complete_cmd, complete_cmd, withOwnFields_cmd]
  · rw [complete_inLen, complete_inLen, withOwnFields_inLen]
  · rw [complete_inBuf, complete_inBuf, withOwnFields_inBuf]

end Sys2Proof.Machine
end

section
/-! Command words written out as numbers (rules R79, R101 and R102). -/

namespace Sys2Proof.Machine

/-- Settles O8, word by word. -/
theorem writtenOutWordsDecode : Obligations.WrittenOutWordsDecode := by
  refine ⟨?envDecode, ?cbcEncrypt, ?lebDecode, ?xmlToQbl, ?opZero, ?opNine, ?reservedBit⟩
  all_goals decide

end Sys2Proof.Machine
end

section
/-! The decoder and the encoder of command words: which words are commands, and why each other word is illegal (rules R79, R100
to R102). -/

namespace Sys2Proof

/-! ## The fields of a command's word (rule R100) -/

@[simp] theorem encode_op (i : Instr) : (encode i).extractLsb' 0 4 = i.op :=
  congrArg CommandWord.op (ofWord_toWord ⟨0, i.op⟩)

@[simp] theorem encode_rsvd (i : Instr) : (encode i).extractLsb' 4 28 = 0 :=
  congrArg CommandWord.rsvd (ofWord_toWord ⟨0, i.op⟩)

theorem op_range (i : Instr) : 1 ≤ i.op.toNat ∧ i.op.toNat ≤ 8 := by
  cases i <;> decide

/-! ## OP (rules R101 and R102) -/

/-- An OP selects a command exactly when it is that command's. -/
theorem decodeOp_eq_some {op : BitVec 4} {i : Instr} : decodeOp op = some i ↔ op = i.op := by
  constructor
  · intro h
    unfold decodeOp at h
    split at h
    case h_9 => cases h
    all_goals
      cases h
      exact BitVec.eq_of_toNat_eq ‹_›
  · rintro rfl
    cases i <;> rfl

/-- An OP selects none exactly when it is 0x0 or 0x9 to 0xF. -/
theorem decodeOp_eq_none {op : BitVec 4} : decodeOp op = none ↔ op.toNat = 0 ∨ 8 < op.toNat := by
  revert op
  decide

/-! ## The three answers of the decoder -/

theorem decode_eq_ok {w : Word} {i : Instr} : decode w = .ok i ↔ w = encode i := by
  constructor
  · intro h
    unfold decode at h
    split at h
    · cases h
    · rename_i j hj
      split at h
      · rename_i hrsvd
        cases h
        rw [← toWord_ofWord w, encode, ← hrsvd, ← decodeOp_eq_some.mp hj]
      · cases h
  · rintro rfl
    rw [decode, encode, ofWord_toWord, decodeOp_eq_some.mpr rfl]
    rfl

theorem decode_eq_reservedOp {w : Word} :
    decode w = .error .reservedOp ↔ (w.extractLsb' 0 4).toNat = 0 ∨ 8 < (w.extractLsb' 0 4).toNat := by
  rw [← decodeOp_eq_none]
  unfold decode
  split
  · rename_i hnone
    exact iff_of_true rfl hnone
  · rename_i j hsome
    refine iff_of_false (fun h => ?_) (Option.ne_none_iff_exists'.mpr ⟨j, hsome⟩)
    split at h <;> cases h

theorem decode_eq_reservedBits {w : Word} :
    decode w = .error .reservedBits ↔
      ¬ ((w.extractLsb' 0 4).toNat = 0 ∨ 8 < (w.extractLsb' 0 4).toNat) ∧ w.extractLsb' 4 28 ≠ 0 := by
  rw [← decodeOp_eq_none]
  unfold decode
  split
  · rename_i hnone
    exact iff_of_false (fun h => by cases h) (fun ⟨hsome, _⟩ => hsome hnone)
  · rename_i j hsome
    have hop : decodeOp (w.extractLsb' 0 4) ≠ none := Option.ne_none_iff_exists'.mpr ⟨j, hsome⟩
    split
    · rename_i hrsvd
      exact iff_of_false (fun h => by cases h) (fun ⟨_, hne⟩ => hne hrsvd)
    · rename_i hrsvd
      exact iff_of_true rfl ⟨hop, hrsvd⟩

/-! ## Byte lanes (rule R79) -/

theorem decodeLanes_eq_ok_of_lanes {l0 l1 l2 l3 : Byte} {i : Instr} :
    decodeLanes [l0, l1, l2, l3] = .ok i ↔ decode (ofLanes l0 l1 l2 l3) = .ok i := by
  cases h : decode (ofLanes l0 l1 l2 l3) <;> simp [decodeLanes, h]

@[simp] theorem decodeLanes_encodeLanes (i : Instr) : decodeLanes (encodeLanes i) = .ok i := by
  rw [encodeLanes, lanes, decodeLanes_eq_ok_of_lanes, ofLanes_lanes, decode_eq_ok]

/-- Only four bytes can be the lanes of a command. -/
theorem exists_lanes_of_decodeLanes {bs : List Byte} {i : Instr} (h : decodeLanes bs = .ok i) :
    ∃ l0 l1 l2 l3, bs = [l0, l1, l2, l3] := by
  unfold decodeLanes at h
  split at h
  · exact ⟨_, _, _, _, rfl⟩
  · cases h

theorem eq_encodeLanes_of_decodeLanes {bs : List Byte} {i : Instr} (h : decodeLanes bs = .ok i) : bs = encodeLanes i := by
  obtain ⟨l0, l1, l2, l3, rfl⟩ := exists_lanes_of_decodeLanes h
  have hword : ofLanes l0 l1 l2 l3 = encode i := decode_eq_ok.mp (decodeLanes_eq_ok_of_lanes.mp h)
  rw [encodeLanes, ← hword, lanes_ofLanes]

/-- Settles O5: the decoder answers a command exactly on its word, and the lanes of a word carry that word. -/
theorem decodeAndEncodeAgree : Obligations.DecodeAndEncodeAgree :=
  ⟨fun i => ⟨decode_eq_ok.mpr rfl, decodeLanes_encodeLanes i⟩, fun _ _ => decode_eq_ok.mp,
    fun _ _ => eq_encodeLanes_of_decodeLanes⟩

/-- Settles O6: the decoder answers a command exactly on its word, which is written out for each of the eight. -/
theorem wholeWordSelectsTheCommand : Obligations.WholeWordSelectsTheCommand := by
  intro w i
  rw [decode_eq_ok]
  constructor
  · rintro rfl
    cases i <;> decide
  · rintro (⟨rfl, rfl⟩ | ⟨rfl, rfl⟩ | ⟨rfl, rfl⟩ | ⟨rfl, rfl⟩ | ⟨rfl, rfl⟩ | ⟨rfl, rfl⟩ | ⟨rfl, rfl⟩ | ⟨rfl, rfl⟩)
    all_goals rfl

/-- The table bits of a command's word are its lanes. -/
theorem decodeTableWord_encode (i : Instr) : decodeTableWord 32 (encode i).toNat = some i := by
  have hlt : (encode i).toNat % 2 ^ 32 = (encode i).toNat := Nat.mod_eq_of_lt (encode i).isLt
  rw [decodeTableWord, hlt, if_pos (encode i).isLt, BitVec.ofNat_toNat, BitVec.setWidth_eq, ← encodeLanes,
    decodeLanes_encodeLanes]
  rfl

end Sys2Proof
end

section
/-! The engine: a CMD write starts a command, the engine's step runs it, and its outcome is `Exec` of rule R111, which depends
on the command word, IN_LEN, the input and the constants alone (rules R102, R110 to R112). -/

namespace Sys2Proof.Machine

/-! ## A CMD write (rule R110) -/

theorem regWrite_cmd (s : State) (v : Word) : regWrite 0x00 v s = some (s.startCommand v) :=
  regWrite_offset .cmd v s

/-- Settles O11, phase by phase. -/
theorem cmdWriteStartsACommand : Obligations.CmdWriteStartsACommand := by
  intro s v
  rw [regWrite_cmd]
  exact ⟨fun hbusy => congrArg some (startCommand_of_busy s v hbusy),
    fun hidle => congrArg some (startCommand_of_idle s v hidle)⟩

/-! ## The engine's step and turn (rule R112) -/

theorem engineStep_of_ok {s : State} {i : Instr} (h : decode s.cmd = .ok i) : engineStep s = exec i s := by
  rw [engineStep, h]

theorem engineStep_of_error {s : State} {e : IllegalWord} (h : decode s.cmd = .error e) :
    engineStep s = .next (s.reportError (illegalError e)) := by
  rw [engineStep, h]
  rfl

theorem engineTurn_of_busy {s : State} (h : s.busy = true) : engineTurn s = engineStep s := if_pos h

theorem engineTurn_of_idle {s : State} (h : s.busy = false) : engineTurn s = .next s :=
  if_neg (Bool.eq_false_iff.mp h)

theorem step_engine {s : State} {ts : List Turn} (h : s.turns = .engine :: ts) (hbusy : s.busy = true) :
    step s = engineStep (s.withTurns ts) := by
  rw [step, takeTurn, h]
  exact engineTurn_of_busy hbusy

/-- Settles O9: in phase BUSY the engine's step is the meaning of the command, whether its turn is listed or none is to come. -/
theorem stepRunsTheDecodedCommand : Obligations.StepRunsTheDecodedCommand :=
  fun _ _ hbusy hdecode => ⟨fun hnone => (step_no_turns hnone hbusy).trans (engineStep_of_ok hdecode),
    fun _ hts => (step_engine hts hbusy).trans (engineStep_of_ok hdecode)⟩

/-! ## A placed command word (log entry 8) -/

theorem withFetchWord_toNat (s : State) (w : Word) : s.withFetchWord 32 w.toNat = placeCommand w s := by
  rw [State.withFetchWord, Nat.mod_eq_of_lt w.isLt, BitVec.ofNat_toNat, BitVec.setWidth_eq]

/-- The engine comes first after a placed word: its turn is added before the turns to come, and needs none when there are
none. -/
theorem step_placeCommand (v : Word) (s : State) :
    step (placeCommand v s) = engineStep ((placeCommand v s).withTurns s.turns) := by
  cases hts : s.turns with
  | nil =>
    have hnone : (placeCommand v s).turns = [] := by rw [placeCommand_turns, hts, engineFirst]
    rw [step_no_turns hnone (placeCommand_busy s v), ← hnone, withTurns_self]
  | cons t ts =>
    have hfirst : (placeCommand v s).turns = .engine :: t :: ts := by rw [placeCommand_turns, hts, engineFirst]
    rw [step_engine hfirst (placeCommand_busy s v)]

/-- Settles O10: the word placed is the command's, and the engine comes first. -/
theorem placedWordRunsNext : Obligations.PlacedWordRunsNext := by
  intro s i
  refine ⟨decodeTableWord_encode i, ?_⟩
  rw [withFetchWord_toNat, step_placeCommand]
  exact engineStep_of_ok (decode_eq_ok.mpr rfl)

/-! ## Illegal words (rule R102) -/

/-- The command step of an illegal word held in CMD reports its IllegalCommand. -/
theorem engineTurn_reports_illegal {s : State} {e : IllegalWord} (hbusy : s.busy = true) (h : decode s.cmd = .error e) :
    ∃ t, engineTurn s = .next t ∧ ReportsError s t (illegalError e).code :=
  ⟨s.reportError (illegalError e), (engineTurn_of_busy hbusy).trans (engineStep_of_error h), reportError_reports s _⟩

/-- Settles O7: the decoder's three answers give the ranges, and the started command holds the word that was written. -/
theorem illegalWordsFailAtTheCommandStep : Obligations.IllegalWordsFailAtTheCommandStep := by
  refine fun w => ⟨fun hop => ?reservedOp, fun hlow hhigh hrsvd => ?reservedBits, fun hlow hhigh hrsvd => ?legal,
    fun s hidle => ?commandStep⟩
  case reservedOp => exact decode_eq_reservedOp.mpr hop
  case reservedBits => exact decode_eq_reservedBits.mpr ⟨by omega, hrsvd⟩
  case legal =>
    cases hw : decode w with
    | ok i => exact ⟨i, rfl⟩
    | error e =>
      cases e with
      | reservedOp => have := decode_eq_reservedOp.mp hw; omega
      | reservedBits =>
        obtain ⟨-, hne⟩ := decode_eq_reservedBits.mp hw
        exact absurd hrsvd hne
  case commandStep =>
    have hcmd : (s.startCommand w).cmd = w := by rw [startCommand_of_idle s w hidle]
    have hreports : ∀ e, decode w = .error e →
        ∃ t, engineTurn (s.startCommand w) = .next t ∧ ReportsError (s.startCommand w) t (illegalError e).code :=
      fun e he => engineTurn_reports_illegal (startCommand_busy s w) (hcmd.symm ▸ he)
    exact ⟨s.startCommand w, regWrite_cmd s w, hcmd, startCommand_busy s w, hreports .reservedOp, hreports .reservedBits⟩

/-! ## The outcome of a command is `Exec` (rule R111) -/

theorem execOutcome_of_ok {s : State} {i : Instr} (h : decode s.cmd = .ok i) :
    execOutcome s = s.outcome (codecByOp s.params i.op.toNat) := by
  have hop := op_range i
  rw [execOutcome, decode_eq_ok.mp h, encode_op, encode_rsvd, if_neg (by omega), if_neg (not_not_intro rfl)]
  rfl

theorem execOutcome_of_error {s : State} {e : IllegalWord} (h : decode s.cmd = .error e) :
    execOutcome s = .err (illegalError e) := by
  cases e with
  | reservedOp => exact if_pos (decode_eq_reservedOp.mp h)
  | reservedBits =>
    obtain ⟨hop, hrsvd⟩ := decode_eq_reservedBits.mp h
    exact (if_neg hop).trans (if_pos hrsvd)

theorem engineStep_eq_execOutcome (s : State) : engineStep s = .next (s.complete (execOutcome s)) := by
  cases h : decode s.cmd with
  | ok i => rw [engineStep_of_ok h, exec_eq, execOutcome_of_ok h]
  | error e => rw [engineStep_of_error h, execOutcome_of_error h, complete_err]

theorem engineTurn_eq_execOutcome {s : State} (hbusy : s.busy = true) :
    engineTurn s = .next (s.complete (execOutcome s)) :=
  (engineTurn_of_busy hbusy).trans (engineStep_eq_execOutcome s)

/-- The input is the first IN_LEN bytes of IN and nothing else of it. -/
theorem input_congr {s u : State} (hlen : u.inLen = s.inLen)
    (hbytes : ∀ k, k < s.inLen.toNat → u.inBuf.read k = s.inBuf.read k) : u.input = s.input := by
  rw [State.input, State.input, hlen, Memory.bytes, Memory.bytes]
  refine List.map_congr_left fun k hk => ?_
  rw [Nat.zero_add]
  exact hbytes k (List.mem_range.mp hk)

theorem execOutcome_congr {s u : State} (hcmd : u.cmd = s.cmd) (hlen : u.inLen = s.inLen) (hparams : u.params = s.params)
    (hinput : u.input = s.input) : execOutcome u = execOutcome s := by
  simp only [execOutcome, hcmd, hlen, hparams, hinput]

/-- Settles O12: the command step completes with `Exec`, every check of which reads one of the listed inputs. -/
theorem commandOutcomeIsExec : Obligations.CommandOutcomeIsExec :=
  ⟨fun _ hbusy => engineTurn_eq_execOutcome hbusy,
    fun _ _ hcmd hlen hparams hbytes => execOutcome_congr hcmd hlen hparams (input_congr hlen hbytes)⟩

/-! ## What the command step writes (rule R112) -/

theorem complete_shows_execOutcome (s : State) : ShowsOutcome s (s.complete (execOutcome s)) (execOutcome s) := by
  cases h : decode s.cmd with
  | ok i => exact execOutcome_of_ok h ▸ complete_shows s _
  | error e => exact execOutcome_of_error h ▸ reportError_reports s _

/-- Above the result that a completion shows, OUT holds the bytes of the new draw. -/
theorem complete_read_above {s : State} {r : Result} (hshows : ShowsOutcome s (s.complete r) r) {k : Nat}
    (hk : (s.complete r).outLen.toNat ≤ k) : (s.complete r).outBuf.read k = Config.freeByte s.draws k := by
  cases r with
  | ok y =>
    obtain ⟨-, hlen, -⟩ := hshows
    exact Memory.read_holding_ge s.draws k y (hlen ▸ hk)
  | err e => exact Memory.read_drawn s.draws k

/-- No access of the host ends phase BUSY. -/
theorem hostTurn_stays_busy {a : Access} {s t : State} (hbusy : s.busy = true) (h : hostTurn a s = .next t) :
    t.busy = true := by
  unfold hostTurn at h
  split at h
  · rename_i r u hu
    cases h
    rw [record_busy, hostAccess_busy hu, hbusy, Bool.true_or]
  · cases h

/-- Settles O13: the turn passes in phase IDLE, and in phase BUSY the completion shows `Exec`. -/
theorem commandStepWritesTheOutcome : Obligations.CommandStepWritesTheOutcome := by
  refine fun s => ⟨engineTurn_of_idle, fun hbusy => ⟨?_, fun a t => hostTurn_stays_busy hbusy⟩⟩
  have hshows := complete_shows_execOutcome s
  exact ⟨s.complete (execOutcome s), engineTurn_eq_execOutcome hbusy, hshows, fun k hk _ => complete_read_above hshows hk⟩

/-! ## Noninterference (rules R111 and R345) -/

/-- Settles O16: both states complete with one outcome, and a completion shows nothing else. -/
theorem observationDependsOnCommandAndInputOnly : Obligations.ObservationDependsOnCommandAndInputOnly := by
  intro s u hs hu hcmd hlen hparams hbytes
  obtain ⟨r, hstep, hstep', hfits⟩ := engineStep_congr hcmd hlen hparams (input_congr hlen hbytes)
  exact ⟨s.complete r, u.complete r, (engineTurn_of_busy hs).trans hstep, (engineTurn_of_busy hu).trans hstep',
    (observe_complete_congr hfits).symm⟩

end Sys2Proof.Machine
end

section
/-! The envelope: the layout of a qbl buffer, and the two commands that build and strip it, each the inverse of the other (rules
R130 to R134). -/

namespace Sys2Proof.Machine

/-! ## Slices and the fields of a word (rules R10 and R76) -/

@[simp] theorem length_le32 (v : Nat) : (le32 v).length = 4 := rfl

theorem length_slice {b : List Byte} {i j : Nat} (h : j ≤ b.length) : (slice b i j).length = j - i := by
  rw [slice, List.length_drop, List.length_take_of_le h]

/-- The slice at the place of the middle part is that part. -/
theorem slice_append (pre mid post : List Byte) :
    slice (pre ++ mid ++ post) pre.length (pre.length + mid.length) = mid := by
  rw [slice, ← List.length_append, List.take_left, List.drop_left]

/-- `le32` writes back the four bytes that `rd_le32` read. -/
theorem le32_rdLe32 (b : List Byte) (i : Nat) :
    le32 (rdLe32 b i).toNat = [byteAt b i, byteAt b (i + 1), byteAt b (i + 2), byteAt b (i + 3)] := by
  rw [le32, BitVec.ofNat_toNat, BitVec.setWidth_eq, rdLe32, lanes_ofLanes]

theorem append_byte_toNat {w : Nat} (x : BitVec w) (b : Byte) : (x ++ b).toNat = x.toNat * 2 ^ 8 + b.toNat := by
  rw [BitVec.toNat_append, ← Nat.shiftLeft_add_eq_or_of_lt b.isLt, Nat.shiftLeft_eq]

theorem ofLanes_toNat (l0 l1 l2 l3 : Byte) :
    (ofLanes l0 l1 l2 l3).toNat = l0.toNat + l1.toNat * 2 ^ 8 + l2.toNat * 2 ^ 16 + l3.toNat * 2 ^ 24 := by
  simp only [ofLanes, append_byte_toNat]
  omega

/-! ## The layout of a qbl buffer (rule R130) -/

/-- The twelve bytes before a payload of `n` bytes (rule R130). -/
def envHeader (n : Nat) : List Byte := [0x7E, 0x00] ++ le32 (n + 7) ++ [0x7F, 0x01] ++ le32 n

@[simp] theorem length_envHeader (n : Nat) : (envHeader n).length = 12 := rfl

theorem envFrame_eq (c : List Byte) : envFrame c = envHeader c.length ++ c ++ [0x7B] := rfl

@[simp] theorem length_envFrame (c : List Byte) : (envFrame c).length = c.length + 13 := by
  rw [envFrame_eq, List.length_append, List.length_append, length_envHeader, List.length_singleton]
  omega

theorem slice_envFrame_payload (c : List Byte) : slice (envFrame c) 12 (12 + c.length) = c :=
  slice_append (envHeader c.length) c [0x7B]

theorem envFrame_trailer (c : List Byte) : (envFrame c)[12 + c.length]? = some 0x7B := by
  have hlen : (envHeader c.length ++ c).length = 12 + c.length := by rw [List.length_append, length_envHeader]
  rw [envFrame_eq, ← hlen, List.getElem?_concat_length]

/-- Settles O30: the header is twelve written-out bytes, and the payload and the trailer stand behind it. -/
theorem qblBufferLayout : Obligations.QblBufferLayout := fun c =>
  ⟨length_envFrame c, rfl, rfl, rfl, rfl, rfl, rfl, slice_envFrame_payload c, envFrame_trailer c⟩

/-- The number read at the place of outerLen, cut to 32 bits. -/
theorem rdLe32_envFrame_outerLen (c : List Byte) : rdLe32 (envFrame c) 2 = BitVec.ofNat 32 (c.length + 7) :=
  rdLe32_le32 (c.length + 7) [0x7E, 0x00] ([0x7F, 0x01] ++ le32 c.length ++ c ++ [0x7B])

/-- The number read at the place of innerLen, cut to 32 bits. -/
theorem rdLe32_envFrame_innerLen (c : List Byte) : rdLe32 (envFrame c) 8 = BitVec.ofNat 32 c.length := by
  rw [envFrame, List.append_assoc _ c]
  exact rdLe32_le32 c.length ([0x7E, 0x00] ++ le32 (c.length + 7) ++ [0x7F, 0x01]) (c ++ [0x7B])

theorem byteAt_envFrame_trailer (c : List Byte) : byteAt (envFrame c) (12 + c.length) = 0x7B := by
  rw [byteAt, List.getD_eq_getElem?_getD, envFrame_trailer, Option.getD_some]

/-- A buffer of at least 13 bytes is its first twelve bytes, the bytes up to the last one, and the last one. -/
theorem eq_header_payload_trailer {q : List Byte} (h : 13 ≤ q.length) :
    q = [byteAt q 0, byteAt q 1, byteAt q 2, byteAt q 3, byteAt q 4, byteAt q 5, byteAt q 6, byteAt q 7, byteAt q 8,
      byteAt q 9, byteAt q 10, byteAt q 11] ++ slice q 12 (q.length - 1) ++ [byteAt q (q.length - 1)] := by
  have hheader : (q.take (q.length - 1)).take 12 = [byteAt q 0, byteAt q 1, byteAt q 2, byteAt q 3, byteAt q 4, byteAt q 5,
      byteAt q 6, byteAt q 7, byteAt q 8, byteAt q 9, byteAt q 10, byteAt q 11] := by
    rw [List.take_take, Nat.min_eq_left (by omega)]
    match q, h with
    | _ :: _ :: _ :: _ :: _ :: _ :: _ :: _ :: _ :: _ :: _ :: _ :: _, _ => rfl
  have htrailer : byteAt q (q.length - 1) = q[q.length - 1] := List.getD_eq_getElem q 0 (by omega)
  rw [← hheader, slice, List.take_append_drop, htrailer, List.take_append_getElem,
    Nat.sub_add_cancel (by omega), List.take_length]

/-! ## What the two codecs accept (rules R132 and R133) -/

/-- A check that fails with `e` is passed by every result that is no error. -/
theorem ite_err_eq_ok {p : Prop} [Decidable p] {e : CommandError} {r : Result} {y : List Byte} :
    (if p then .err e else r) = Result.ok y ↔ ¬ p ∧ r = .ok y := by
  by_cases h : p <;> simp [h]

/-- EnvDecode accepts exactly the buffers that pass its eight checks. -/
theorem envDecode_eq_ok {q c : List Byte} :
    envDecode q = .ok c ↔
      13 ≤ q.length ∧ byteAt q 0 = 0x7E ∧ byteAt q 1 = 0x00 ∧ byteAt q 6 = 0x7F ∧ byteAt q 7 = 0x01 ∧
      byteAt q (q.length - 1) = 0x7B ∧ (rdLe32 q 2).toNat = q.length - 13 + 7 ∧ (rdLe32 q 8).toNat = q.length - 13 ∧
      slice q 12 (q.length - 1) = c := by
  simp only [envDecode, ite_err_eq_ok, Nat.not_lt, not_not, ne_eq, Result.ok.injEq]

theorem envEncode_eq_ok {c q : List Byte} : envEncode c = .ok q ↔ c.length + 7 ≤ 0xFFFFFFFF ∧ envFrame c = q := by
  simp only [envEncode, ite_err_eq_ok, gt_iff_lt, Nat.not_lt, Result.ok.injEq]

theorem envEncode_of_overflow {c : List Byte} (h : c.length + 7 > 0xFFFFFFFF) : envEncode c = .err .lengthOverflow := if_pos h

/-- The frame of a payload whose length fits passes the eight checks. -/
theorem envDecode_envFrame {c : List Byte} (h : c.length + 7 ≤ 0xFFFFFFFF) : envDecode (envFrame c) = .ok c := by
  have hlast : (envFrame c).length - 1 = 12 + c.length := by rw [length_envFrame]; omega
  have hpayload : (envFrame c).length - 13 = c.length := by rw [length_envFrame]; omega
  rw [envDecode_eq_ok, hlast, hpayload, rdLe32_envFrame_outerLen, rdLe32_envFrame_innerLen]
  refine ⟨?length, rfl, rfl, rfl, rfl, byteAt_envFrame_trailer c, ?outerLen, ?innerLen, slice_envFrame_payload c⟩
  case length => rw [length_envFrame]; omega
  case outerLen => exact (BitVec.toNat_ofNat ..).trans (Nat.mod_eq_of_lt (by omega))
  case innerLen => exact (BitVec.toNat_ofNat ..).trans (Nat.mod_eq_of_lt (by omega))

/-- A buffer that passes the eight checks is the frame of its payload, and both length fields hold the length itself. -/
theorem eq_envFrame_of_envDecode {q c : List Byte} (h : envDecode q = .ok c) :
    c.length + 7 ≤ 0xFFFFFFFF ∧ envFrame c = q := by
  obtain ⟨hlen, h0, h1, h6, h7, htrailer, houter, hinner, hpayload⟩ := envDecode_eq_ok.mp h
  have hc : c.length = q.length - 13 := by
    rw [← hpayload, length_slice (Nat.sub_le _ _)]
    omega
  rw [← hc] at houter hinner
  have hfits := (rdLe32 q 2).isLt
  refine ⟨by omega, ?_⟩
  rw [envFrame, ← houter, ← hinner, le32_rdLe32, le32_rdLe32, ← h0, ← h1, ← h6, ← h7, ← htrailer, ← hpayload]
  exact (eq_header_payload_trailer hlen).symm

/-- EnvDecode gives `c` for exactly the buffer that EnvEncode gives for `c` (rule R134). -/
theorem envDecode_eq_ok_iff_envEncode {q c : List Byte} : envDecode q = .ok c ↔ envEncode c = .ok q := by
  rw [envEncode_eq_ok]
  constructor
  · exact eq_envFrame_of_envDecode
  · rintro ⟨hfits, rfl⟩
    exact envDecode_envFrame hfits

/-! ## The outcome of a command whose input fits (rules R111 and R112) -/

/-- The capacity check on a result, the last one of rule R111. -/
def Result.capped (room : Nat) (y : List Byte) : Result := if room < y.length then .err .resultOverCap else .ok y

theorem outcome_of_fits {s : State} (h : InputFits s) (f : List Byte → Result) :
    s.outcome f = (f s.input).thenRun (Result.capped (outRoom s)) := by
  cases hf : f s.input with
  | ok y => exact outcome_ok s f y h hf
  | err e => exact outcome_err s f e h hf

theorem exec_shows {i : Instr} {s : State} (h : InputFits s) :
    ∃ t, exec i s = .next t ∧
      ShowsOutcome s t ((codecByOp s.params i.op.toNat s.input).thenRun (Result.capped (outRoom s))) := by
  refine ⟨_, exec_eq i s, ?_⟩
  rw [← outcome_of_fits h]
  exact complete_shows s _

/-- An error check before a stage ends the command with its error. -/
theorem thenRun_ite_err {p : Prop} [Decidable p] (e : CommandError) (r : Result) (f : List Byte → Result) :
    (if p then .err e else r : Result).thenRun f = if p then .err e else r.thenRun f :=
  apply_ite (Result.thenRun · f) p _ _

@[simp] theorem thenRun_ok (y : List Byte) (f : List Byte → Result) : (Result.ok y).thenRun f = f y := rfl

/-- A command whose outcome is a check before the rest shows the error of the check, or the rest. -/
theorem showsOutcome_ite_err {p : Prop} [Decidable p] (s t : State) (e : CommandError) (r : Result) :
    ShowsOutcome s t (if p then .err e else r) = if p then ReportsError s t e.code else ShowsOutcome s t r :=
  apply_ite (ShowsOutcome s t) p _ _

/-! ## The two commands -/

/-- The input of a command is shorter than `2^32` bytes, because IN_LEN is a 32-bit register (rule R37). -/
theorem length_input_lt (s : State) : s.input.length < 2 ^ 32 := by
  rw [length_input]
  exact s.inLen.isLt

/-- Settles O17: the input is shorter than `2^32` bytes, so that its length fields hold its length. -/
theorem envDecodeDeliversThePayload : Obligations.EnvDecodeDeliversThePayload := by
  intro s c hfits hinput hroom
  have hframe : s.input = envFrame c := hinput
  have hlen : c.length + 13 < 2 ^ 32 := by
    rw [← length_envFrame, ← hframe]
    exact length_input_lt s
  have hdecode : envDecode s.input = .ok c := hframe ▸ envDecode_envFrame (by omega)
  exact exec_delivers hfits hdecode hroom


/-- Settles O18: the outcome is the chain of the eight checks and the capacity check, and each shows its code. -/
theorem envDecodeMakesEightChecks : Obligations.EnvDecodeMakesEightChecks := by
  refine ⟨decode_eq_ok.mpr rfl, fun s hfits => ?_⟩
  obtain ⟨t, hstep, hshows⟩ : ∃ t, exec .envDecode s = .next t ∧
      ShowsOutcome s t ((envDecode s.input).thenRun (Result.capped (outRoom s))) := exec_shows (i := .envDecode) hfits
  have hlen : (slice s.input 12 (s.input.length - 1)).length = s.input.length - 13 := by
    rw [length_slice (Nat.sub_le _ _)]
    omega
  simp only [envDecode, thenRun_ite_err, thenRun_ok, Result.capped, showsOutcome_ite_err, rdLe32, ofLanes_toNat,
    hlen] at hshows
  exact ⟨t, hstep, hshows⟩

/-- Settles O19, from what EnvEncode answers on either side of the 32-bit bound. -/
theorem envEncodeBuildsTheFrame : Obligations.EnvEncodeBuildsTheFrame := by
  refine ⟨decode_eq_ok.mpr rfl, fun s hfits => ⟨fun hroom => ?frame, fun hover => ?overflow, fun hlen hroom => ?capacity⟩⟩
  case frame =>
    have hcap : outRoom s < 2 ^ 32 := s.params.outCap.isLt
    have hencode : envEncode s.input = .ok (envFrame s.input) := envEncode_eq_ok.mpr ⟨by omega, rfl⟩
    obtain ⟨t, hstep, hdelivers⟩ := exec_delivers (i := .envEncode) hfits hencode ((length_envFrame _).trans_le hroom)
    have ⟨_, houtLen, _⟩ := hdelivers
    exact ⟨t, hstep, hdelivers, houtLen.trans (length_envFrame _)⟩
  case overflow => exact exec_reports (i := .envEncode) hfits (envEncode_of_overflow hover)
  case capacity =>
    have hencode : envEncode s.input = .ok (envFrame s.input) := envEncode_eq_ok.mpr ⟨hlen, rfl⟩
    exact exec_overflows hfits hencode (hroom.trans_eq (length_envFrame _).symm)

/-- Settles O26: ENV_ENCODE delivers the frame, and EnvDecode undoes EnvEncode in both directions. -/
theorem envelopeRoundTrip : Obligations.EnvelopeRoundTrip := by
  refine ⟨fun s hin hout => ?_, fun q c => envDecode_eq_ok_iff_envEncode.mp⟩
  have hfits : InputFits s := by
    rw [length_input] at hin
    exact (Nat.le_add_right _ 13).trans hin
  obtain ⟨t, hstep, hdelivers, hlen⟩ := (envEncodeBuildsTheFrame.2 s hfits).1 hout
  obtain ⟨hstatus, -, -, hresult, -⟩ := hdelivers
  refine ⟨t, hstep, hstatus, hlen, fun u hparams hu => ?_⟩
  have hfitsU : InputFits u := by
    rw [InputFits, hparams, ← length_input, hu, length_result, hlen]
    exact hin
  have hroomU : s.input.length ≤ outRoom u := by
    rw [outRoom, hparams]
    exact (Nat.le_add_right _ 13).trans hout
  exact envDecodeDeliversThePayload u s.input hfitsU (hu.trans hresult) hroomU

end Sys2Proof.Machine
end

section
/-! AES-128: the inverse cipher undoes the cipher, transformation by transformation (rules R202 to R213). -/

namespace Sys2Proof.Machine

/-! ## Combination of blocks (rules R160 and R209) -/

theorem Column.xor_xor_cancel_right (a b : Column) : Column.xor (Column.xor a b) b = a := by
  simp only [Column.xor, BitVec.xor_assoc, BitVec.xor_self, BitVec.xor_zero]

@[simp] theorem Block.xor_xor_cancel_right (a b : Block) : Block.xor (Block.xor a b) b = a := by
  simp only [Block.xor, Column.xor_xor_cancel_right]

@[simp] theorem addRoundKey_addRoundKey (k s : Block) : addRoundKey k (addRoundKey k s) = s :=
  Block.xor_xor_cancel_right s k

/-! ## Bytes and rows (rules R204, R206 and R207) -/

/-- The two tables, entry by entry: each byte is found again (rule R204). -/
@[simp] theorem invSbox_sbox : ∀ a : Byte, invSbox (sbox a) = a := by decide +kernel

@[simp] theorem invSubBytes_subBytes (s : Block) : invSubBytes (subBytes s) = s := by
  simp only [invSubBytes, subBytes, Block.map, Column.map, invSbox_sbox]

@[simp] theorem invShiftRows_shiftRows (s : Block) : invShiftRows (shiftRows s) = s := rfl

/-! ## Field arithmetic (rule R202) -/

/-- Bit `i` of `b` in the product `a • b` (rule R202): it adds `xtime^i(a)` to the sum so far. -/
def gmulStep (a b acc : Byte) (i : Nat) : Byte := if b.getLsbD i then acc ^^^ xtimes i a else acc

theorem gmul_eq_foldl (a b : Byte) : gmul a b = (List.range 8).foldl (gmulStep a b) 0 := rfl

theorem gmulStep_xor (a b c p q : Byte) (i : Nat) :
    gmulStep a (b ^^^ c) (p ^^^ q) i = gmulStep a b p i ^^^ gmulStep a c q i := by
  simp only [gmulStep, BitVec.getLsbD_xor]
  cases b.getLsbD i <;> cases c.getLsbD i
  case true.true =>
    exact calc
      p ^^^ q = (p ^^^ q) ^^^ (xtimes i a ^^^ xtimes i a) := by rw [BitVec.xor_self, BitVec.xor_zero]
      _ = (p ^^^ xtimes i a) ^^^ (q ^^^ xtimes i a) := by ac_rfl
  case false.false => rfl
  all_goals
    simp only [Bool.bne_false, Bool.bne_true, Bool.not_false, Bool.false_eq_true, if_true, if_false]
    ac_rfl

theorem foldl_gmulStep_xor (a b c p q : Byte) (is : List Nat) :
    is.foldl (gmulStep a (b ^^^ c)) (p ^^^ q) = is.foldl (gmulStep a b) p ^^^ is.foldl (gmulStep a c) q := by
  induction is generalizing p q with
  | nil => rfl
  | cons i is ih => rw [List.foldl_cons, gmulStep_xor, ih, List.foldl_cons, List.foldl_cons]

/-- The product is additive in the byte whose bits it runs over. -/
theorem gmul_xor (a b c : Byte) : gmul a (b ^^^ c) = gmul a b ^^^ gmul a c :=
  foldl_gmulStep_xor a b c 0 0 (List.range 8)

/-! ## Columns (rule R208) -/

/-- Row 0 of MixColumns; the other rows are the same sum of the bytes turned round (rule R208). -/
def mixByte (a b c d : Byte) : Byte := gmul 0x02 a ^^^ gmul 0x03 b ^^^ gmul 0x01 c ^^^ gmul 0x01 d

/-- Row 0 of InvMixColumns, the other rows likewise (rule R208). -/
def invMixByte (a b c d : Byte) : Byte := gmul 0x0e a ^^^ gmul 0x0b b ^^^ gmul 0x0d c ^^^ gmul 0x09 d

theorem mixColumn_eq (a b c d : Byte) :
    mixColumn ⟨a, b, c, d⟩ = ⟨mixByte a b c d, mixByte b c d a, mixByte c d a b, mixByte d a b c⟩ := by
  simp only [mixColumn, mixByte, Column.mk.injEq, true_and]
  refine ⟨?_, ?_, ?_⟩ <;> ac_rfl

theorem invMixColumn_eq (a b c d : Byte) :
    invMixColumn ⟨a, b, c, d⟩ = ⟨invMixByte a b c d, invMixByte b c d a, invMixByte c d a b, invMixByte d a b c⟩ := by
  simp only [invMixColumn, invMixByte, Column.mk.injEq, true_and]
  refine ⟨?_, ?_, ?_⟩ <;> ac_rfl

theorem invMixByte_xor (a b c d a' b' c' d' : Byte) :
    invMixByte (a ^^^ a') (b ^^^ b') (c ^^^ c') (d ^^^ d') = invMixByte a b c d ^^^ invMixByte a' b' c' d' := by
  simp only [invMixByte, gmul_xor]
  ac_rfl

/-- The products of the first row of the inverse matrix with the four columns of the matrix: 1, 0, 0 and 0. -/
theorem invMixByte_columns : ∀ x : Byte,
    invMixByte (gmul 0x02 x) (gmul 0x01 x) (gmul 0x01 x) (gmul 0x03 x) = x ∧
    invMixByte (gmul 0x03 x) (gmul 0x02 x) (gmul 0x01 x) (gmul 0x01 x) = 0#8 ∧
    invMixByte (gmul 0x01 x) (gmul 0x03 x) (gmul 0x02 x) (gmul 0x01 x) = 0#8 ∧
    invMixByte (gmul 0x01 x) (gmul 0x01 x) (gmul 0x03 x) (gmul 0x02 x) = 0#8 := by decide +kernel

theorem invMixByte_mixByte (a b c d : Byte) :
    invMixByte (mixByte a b c d) (mixByte b c d a) (mixByte c d a b) (mixByte d a b c) = a := by
  obtain ⟨ha, -, -, -⟩ := invMixByte_columns a
  obtain ⟨-, hb, -, -⟩ := invMixByte_columns b
  obtain ⟨-, -, hc, -⟩ := invMixByte_columns c
  obtain ⟨-, -, -, hd⟩ := invMixByte_columns d
  have row1 : mixByte b c d a = gmul 0x01 a ^^^ gmul 0x02 b ^^^ gmul 0x03 c ^^^ gmul 0x01 d := by
    rw [mixByte]
    ac_rfl
  have row2 : mixByte c d a b = gmul 0x01 a ^^^ gmul 0x01 b ^^^ gmul 0x02 c ^^^ gmul 0x03 d := by
    rw [mixByte]
    ac_rfl
  have row3 : mixByte d a b c = gmul 0x03 a ^^^ gmul 0x01 b ^^^ gmul 0x01 c ^^^ gmul 0x02 d := by
    rw [mixByte]
    ac_rfl
  rw [row1, row2, row3, mixByte, invMixByte_xor, invMixByte_xor, invMixByte_xor, ha, hb, hc, hd]
  simp only [BitVec.xor_zero]

theorem invMixColumn_mixColumn (w : Column) : invMixColumn (mixColumn w) = w := by
  obtain ⟨a, b, c, d⟩ := w
  simp only [mixColumn_eq, invMixColumn_eq, invMixByte_mixByte]

@[simp] theorem invMixColumns_mixColumns (s : Block) : invMixColumns (mixColumns s) = s := by
  simp only [invMixColumns, mixColumns, Block.map, invMixColumn_mixColumn]

/-! ## Rounds and the cipher (rules R211 to R213) -/

/-- A round of the inverse cipher takes the cipher's next SubBytes and ShiftRows back by one round. -/
theorem decRound_encRound (k s : Block) (i : Nat) :
    decRound k (shiftRows (subBytes (encRound k s i))) i = shiftRows (subBytes s) := by
  simp only [decRound, encRound, invShiftRows_shiftRows, invSubBytes_subBytes, addRoundKey_addRoundKey,
    invMixColumns_mixColumns]

theorem foldl_decRound_reverse (k s : Block) (rounds : List Nat) :
    rounds.reverse.foldl (decRound k) (shiftRows (subBytes (rounds.foldl (encRound k) s))) = shiftRows (subBytes s) := by
  induction rounds generalizing s with
  | nil => rfl
  | cons i rounds ih =>
    rw [List.reverse_cons, List.foldl_append, List.foldl_cons (f := encRound k), ih, List.foldl_cons, List.foldl_nil,
      decRound_encRound]

/-- `AesDec` undoes `AesEnc` (rule R213): the rounds of the inverse cipher, in reverse order, cancel one by one. -/
@[simp] theorem aesDec_aesEnc (k x : Block) : aesDec k (aesEnc k x) = x := by
  have hrounds := foldl_decRound_reverse k (addRoundKey (roundKey k 0) x) [1, 2, 3, 4, 5, 6, 7, 8, 9]
  rw [show [1, 2, 3, 4, 5, 6, 7, 8, 9].reverse = [9, 8, 7, 6, 5, 4, 3, 2, 1] from rfl] at hrounds
  rw [aesDec, aesEnc, addRoundKey_addRoundKey, hrounds, invShiftRows_shiftRows, invSubBytes_subBytes,
    addRoundKey_addRoundKey]

end Sys2Proof.Machine
end

section
/-! Cipher block chaining: a sequence of `16m` bytes is `m` blocks, and the chain runs over those blocks (rules R160 to R163 and
R168). -/

namespace Sys2Proof.Machine

/-! ## A sequence of whole blocks (rule R160) -/

@[simp] theorem Block.length_bytes (b : Block) : (Block.bytes b).length = 16 := rfl

@[simp] theorem joinBlocks_nil : joinBlocks [] = [] := rfl

@[simp] theorem joinBlocks_cons (b : Block) (bs : List Block) : joinBlocks (b :: bs) = Block.bytes b ++ joinBlocks bs :=
  List.flatMap_cons

@[simp] theorem length_joinBlocks (bs : List Block) : (joinBlocks bs).length = 16 * bs.length := by
  induction bs with
  | nil => rfl
  | cons b bs ih =>
    rw [joinBlocks_cons, List.length_append, ih, Block.length_bytes, List.length_cons]
    omega

@[simp] theorem splitBlocks_joinBlocks (bs : List Block) : splitBlocks (joinBlocks bs) = bs := by
  induction bs with
  | nil => rfl
  | cons b bs ih =>
    have hsplit : splitBlocks (Block.bytes b ++ joinBlocks bs) = b :: splitBlocks (joinBlocks bs) := rfl
    rw [joinBlocks_cons, hsplit, ih]

theorem exists_block_append {p : List Byte} (h : 16 ≤ p.length) : ∃ b rest, p = Block.bytes b ++ rest := by
  match p, h with
  | b0 :: b1 :: b2 :: b3 :: b4 :: b5 :: b6 :: b7 :: b8 :: b9 :: b10 :: b11 :: b12 :: b13 :: b14 :: b15 :: rest, _ =>
    exact ⟨⟨⟨b0, b1, b2, b3⟩, ⟨b4, b5, b6, b7⟩, ⟨b8, b9, b10, b11⟩, ⟨b12, b13, b14, b15⟩⟩, rest, rfl⟩

/-- A sequence of `16m` bytes is the join of `m` blocks. -/
theorem exists_eq_joinBlocks {p : List Byte} {m : Nat} (h : p.length = 16 * m) :
    ∃ bs, bs.length = m ∧ p = joinBlocks bs := by
  induction m generalizing p with
  | zero => exact ⟨[], rfl, List.length_eq_zero_iff.mp h⟩
  | succ m ih =>
    obtain ⟨b, rest, rfl⟩ := exists_block_append (p := p) (by omega)
    rw [List.length_append, Block.length_bytes] at h
    obtain ⟨bs, hlen, rfl⟩ := ih (p := rest) (by omega)
    exact ⟨b :: bs, congrArg (· + 1) hlen, (joinBlocks_cons b bs).symm⟩

theorem take_joinBlocks (k : Nat) (bs : List Block) : (joinBlocks bs).take (16 * k) = joinBlocks (bs.take k) := by
  induction bs generalizing k with
  | nil => rw [List.take_nil, joinBlocks_nil, List.take_nil]
  | cons b bs ih =>
    cases k with
    | zero => rfl
    | succ k =>
      have hlen : 16 * (k + 1) = (Block.bytes b).length + 16 * k := by
        rw [Block.length_bytes]
        omega
      rw [joinBlocks_cons, hlen, List.take_length_add_append, ih, List.take_succ_cons, joinBlocks_cons]

/-! ## The chain over blocks (rules R161 and R163) -/

@[simp] theorem length_cbcEncBlocks (key prev : Block) (ps : List Block) : (cbcEncBlocks key prev ps).length = ps.length := by
  induction ps generalizing prev with
  | nil => rfl
  | cons p ps ih => exact congrArg (· + 1) (ih _)

@[simp] theorem length_cbcDecBlocks (key prev : Block) (cs : List Block) : (cbcDecBlocks key prev cs).length = cs.length := by
  induction cs generalizing prev with
  | nil => rfl
  | cons c cs ih => exact congrArg (· + 1) (ih _)

theorem cbcEncBlocks_getElem?_zero {key prev x : Block} {ps : List Block} (h : ps[0]? = some x) :
    (cbcEncBlocks key prev ps)[0]? = some (aesEnc key (Block.xor x prev)) := by
  cases ps with
  | nil => cases h
  | cons p ps =>
    cases h
    rfl

theorem cbcDecBlocks_getElem?_zero {key prev x : Block} {cs : List Block} (h : cs[0]? = some x) :
    (cbcDecBlocks key prev cs)[0]? = some (Block.xor (aesDec key x) prev) := by
  cases cs with
  | nil => cases h
  | cons c cs =>
    cases h
    rfl

/-- After the first block, the chaining value is the ciphertext block before. -/
theorem cbcEncBlocks_getElem?_succ {key prev x c : Block} {ps : List Block} {j : Nat} (hx : ps[j + 1]? = some x)
    (hc : (cbcEncBlocks key prev ps)[j]? = some c) :
    (cbcEncBlocks key prev ps)[j + 1]? = some (aesEnc key (Block.xor x c)) := by
  induction ps generalizing prev j with
  | nil => cases hx
  | cons p ps ih =>
    cases j with
    | zero =>
      cases hc
      exact cbcEncBlocks_getElem?_zero hx
    | succ j => exact ih (j := j) hx hc

theorem cbcDecBlocks_getElem?_succ {key prev x y : Block} {cs : List Block} {j : Nat} (hx : cs[j + 1]? = some x)
    (hy : cs[j]? = some y) : (cbcDecBlocks key prev cs)[j + 1]? = some (Block.xor (aesDec key x) y) := by
  induction cs generalizing prev j with
  | nil => cases hx
  | cons c cs ih =>
    cases j with
    | zero =>
      cases hy
      exact cbcDecBlocks_getElem?_zero hx
    | succ j => exact ih (j := j) hx hy

/-- Block by block, `AesDec` undoes `AesEnc` and the chaining value cancels. -/
@[simp] theorem cbcDecBlocks_cbcEncBlocks (key prev : Block) (ps : List Block) :
    cbcDecBlocks key prev (cbcEncBlocks key prev ps) = ps := by
  induction ps generalizing prev with
  | nil => rfl
  | cons p ps ih => rw [cbcEncBlocks, cbcDecBlocks, aesDec_aesEnc, Block.xor_xor_cancel_right, ih]

/-- The ciphertext of the first `k` blocks depends on those blocks alone. -/
theorem take_cbcEncBlocks (k : Nat) (key prev : Block) (ps : List Block) :
    (cbcEncBlocks key prev ps).take k = cbcEncBlocks key prev (ps.take k) := by
  induction ps generalizing prev k with
  | nil => rw [List.take_nil, cbcEncBlocks, List.take_nil]
  | cons p ps ih =>
    cases k with
    | zero => rfl
    | succ k => rw [cbcEncBlocks, List.take_succ_cons, List.take_succ_cons, ih, cbcEncBlocks]

/-! ## The chain over bytes -/

@[simp] theorem cbcEnc_joinBlocks (key iv : Block) (bs : List Block) :
    cbcEnc key iv (joinBlocks bs) = joinBlocks (cbcEncBlocks key iv bs) := by
  rw [cbcEnc, splitBlocks_joinBlocks]

@[simp] theorem cbcDec_joinBlocks (key iv : Block) (bs : List Block) :
    cbcDec key iv (joinBlocks bs) = joinBlocks (cbcDecBlocks key iv bs) := by
  rw [cbcDec, splitBlocks_joinBlocks]

theorem length_cbcEnc {p : List Byte} {m : Nat} (key iv : Block) (h : p.length = 16 * m) :
    (cbcEnc key iv p).length = 16 * m := by
  obtain ⟨bs, rfl, rfl⟩ := exists_eq_joinBlocks h
  rw [cbcEnc_joinBlocks, length_joinBlocks, length_cbcEncBlocks]

theorem length_cbcDec {c : List Byte} {m : Nat} (key iv : Block) (h : c.length = 16 * m) :
    (cbcDec key iv c).length = 16 * m := by
  obtain ⟨bs, rfl, rfl⟩ := exists_eq_joinBlocks h
  rw [cbcDec_joinBlocks, length_joinBlocks, length_cbcDecBlocks]

/-- CBC decryption undoes CBC encryption on whole blocks (rule R163). -/
theorem cbcDec_cbcEnc {p : List Byte} {m : Nat} (key iv : Block) (h : p.length = 16 * m) :
    cbcDec key iv (cbcEnc key iv p) = p := by
  obtain ⟨bs, -, rfl⟩ := exists_eq_joinBlocks h
  rw [cbcEnc_joinBlocks, cbcDec_joinBlocks, cbcDecBlocks_cbcEncBlocks]

theorem take_cbcEnc {p : List Byte} {m : Nat} (k : Nat) (key iv : Block) (h : p.length = 16 * m) :
    (cbcEnc key iv p).take (16 * k) = cbcEnc key iv (p.take (16 * k)) := by
  obtain ⟨bs, -, rfl⟩ := exists_eq_joinBlocks h
  rw [cbcEnc_joinBlocks, take_joinBlocks, take_joinBlocks, cbcEnc_joinBlocks, take_cbcEncBlocks]

/-- Settles O36: the bytes are the join of blocks, and the chain over blocks gives the two equations. -/
theorem cbcEncryptionChain : Obligations.CbcEncryptionChain := by
  intro key iv p m _ hlen
  refine ⟨length_cbcEnc key iv hlen, ?_⟩
  obtain ⟨bs, -, rfl⟩ := exists_eq_joinBlocks hlen
  rw [cbcEnc_joinBlocks, splitBlocks_joinBlocks, splitBlocks_joinBlocks]
  exact ⟨fun _ => cbcEncBlocks_getElem?_zero, fun _ _ _ => cbcEncBlocks_getElem?_succ⟩

/-- Settles O37, the last clause from `cbcDec_cbcEnc`. -/
theorem cbcDecryptionChain : Obligations.CbcDecryptionChain := by
  intro key iv c m _ hlen
  obtain ⟨bs, -, rfl⟩ := exists_eq_joinBlocks hlen
  refine ⟨length_cbcDec key iv hlen, ?first, ?next, cbcDec_cbcEnc key iv hlen⟩ <;>
    rw [cbcDec_joinBlocks, splitBlocks_joinBlocks, splitBlocks_joinBlocks]
  case first => exact fun _ => cbcDecBlocks_getElem?_zero
  case next => exact fun _ _ _ => cbcDecBlocks_getElem?_succ

end Sys2Proof.Machine
end

section
/-! Padding, and the two commands of the cipher codec, each the inverse of the other (rules R164 to R169). -/

namespace Sys2Proof.Machine

/-! ## Pad (rule R164) -/

theorem padLength_bounds (n : Nat) : 1 ≤ padLength n ∧ padLength n ≤ 16 := by
  rw [padLength]
  omega

theorem length_pad (x : List Byte) : (pad x).length = 16 * (x.length / 16 + 1) := by
  rw [pad, List.length_append, List.length_replicate, padLength]
  omega

theorem take_pad {x : List Byte} {n : Nat} (h : n ≤ x.length) : (pad x).take n = x.take n := by
  rw [pad, List.take_append_of_le_length h]

/-- Settles O34: the length of the padded sequence is `16 * (len div 16 + 1)`. -/
theorem paddingIsAlwaysAdded : Obligations.PaddingIsAlwaysAdded := by
  intro x
  obtain ⟨hpos, hmax⟩ := padLength_bounds x.length
  refine ⟨⟨padLength x.length, rfl, hpos, hmax, rfl⟩, ?_⟩
  rw [length_pad]
  refine ⟨by omega, by omega, fun l _ _ => by omega, fun hmul => ?_⟩
  rw [pad, padLength, hmul]
  rfl

/-! ## Unpad (rule R165) -/

/-- The check on the last `n` bytes, counted from the end. -/
theorem all_drop_eq_iff {p : List Byte} {b : Byte} {n : Nat} (h : n ≤ p.length) :
    (p.drop (p.length - n)).all (· == b) = true ↔
      ∀ k, 1 ≤ k → k ≤ n → (byteAt p (p.length - k)).toNat = b.toNat := by
  simp only [List.all_eq_true, beq_iff_eq, List.mem_drop_iff_getElem, BitVec.toNat_inj]
  constructor
  · intro hall k hpos hk
    rw [byteAt, List.getD_eq_getElem p 0 (by omega)]
    exact hall _ ⟨n - k, by omega, by congr 1; omega⟩
  · rintro hbytes _ ⟨i, hi, rfl⟩
    have hindex : p.length - n + i = p.length - (n - i) := by omega
    rw [← hbytes (n - i) (by omega) (by omega), byteAt, ← hindex, List.getD_eq_getElem p 0 (by omega)]

theorem unpad_of_badPadLength {p : List Byte} (h : (lastByte p).toNat = 0 ∨ 16 < (lastByte p).toNat) :
    unpad p = .err .badPadLength := if_pos h

/-- When N is legal, Unpad is its check on the last N bytes. -/
theorem unpad_of_padLength {p : List Byte} (hpos : 1 ≤ (lastByte p).toNat) (hmax : (lastByte p).toNat ≤ 16) :
    unpad p = if (p.drop (p.length - (lastByte p).toNat)).all (· == lastByte p) then
      .ok (p.take (p.length - (lastByte p).toNat)) else .err .badPadBytes :=
  if_neg (by omega)

section
variable {p : List Byte} {n : Nat} (hn : n = (lastByte p).toNat) (hpos : 1 ≤ n) (hmax : n ≤ 16) (hlen : n ≤ p.length)
include hn hpos hmax hlen

theorem unpad_of_padBytes (h : ∀ k, 1 ≤ k → k ≤ n → (byteAt p (p.length - k)).toNat = n) :
    unpad p = .ok (p.take (p.length - n)) := by
  subst hn
  rw [unpad_of_padLength hpos hmax, if_pos ((all_drop_eq_iff hlen).mpr h)]

theorem unpad_of_badPadBytes {k : Nat} (hk : 1 ≤ k) (hkn : k ≤ n) (h : (byteAt p (p.length - k)).toNat ≠ n) :
    unpad p = .err .badPadBytes := by
  subst hn
  rw [unpad_of_padLength hpos hmax, if_neg fun hall => h ((all_drop_eq_iff hlen).mp hall k hk hkn)]

end

/-- Every byte that Pad adds is N. -/
theorem byteAt_pad {x : List Byte} {k : Nat} (hpos : 1 ≤ k) (hk : k ≤ padLength x.length) :
    (byteAt (pad x) ((pad x).length - k)).toNat = padLength x.length := by
  obtain ⟨-, hmax⟩ := padLength_bounds x.length
  have hindex : (pad x).length - k = x.length + (padLength x.length - k) := by
    rw [pad, List.length_append, List.length_replicate]
    omega
  rw [hindex, byteAt, pad, List.getD_append_right _ _ _ _ (Nat.le_add_right _ _), Nat.add_sub_cancel_left,
    List.getD_replicate _ (by omega), BitVec.toNat_ofNat, Nat.mod_eq_of_lt (by omega)]

/-- Unpad undoes Pad (rule R165). -/
@[simp] theorem unpad_pad (x : List Byte) : unpad (pad x) = .ok x := by
  obtain ⟨hpos, hmax⟩ := padLength_bounds x.length
  have hlen : (pad x).length = x.length + padLength x.length := by
    rw [pad, List.length_append, List.length_replicate]
  rw [unpad_of_padBytes (byteAt_pad le_rfl hpos).symm hpos hmax (by omega) fun _ => byteAt_pad, hlen,
    Nat.add_sub_cancel, take_pad le_rfl, List.take_length]

/-- Settles O35: a positive multiple of 16 bytes holds its last 16 bytes, so that every check is on bytes it has. -/
theorem unpadChecksEveryPaddingByte : Obligations.UnpadChecksEveryPaddingByte := by
  refine ⟨fun p n hne hmul hn => ⟨?length, ?bytes, ?passed⟩, unpad_pad⟩
  case length =>
    subst hn
    exact unpad_of_badPadLength
  case bytes =>
    rintro hpos hmax ⟨k, hk, hkn, hbad⟩
    exact unpad_of_badPadBytes hn hpos hmax (by omega) hk hkn hbad
  case passed => exact fun hpos hmax => unpad_of_padBytes hn hpos hmax (by omega)

/-! ## IV reuse (rule R168) -/

/-- The first `16k` bytes of the ciphertext are the encryption of the first `16k` bytes of the input. -/
theorem take_cbcEnc_pad {x : List Byte} {k : Nat} (key iv : Block) (h : 16 * k ≤ x.length) :
    (cbcEnc key iv (pad x)).take (16 * k) = cbcEnc key iv (x.take (16 * k)) := by
  rw [take_cbcEnc k key iv (length_pad x), take_pad h]

/-- Settles O38, from `take_cbcEnc_pad`. -/
theorem equalStartsEncryptAlike : Obligations.EqualStartsEncryptAlike := by
  rintro key iv x y _ _ k hx hy hxy ⟨⟩ ⟨⟩
  rw [take_cbcEnc_pad key iv hx, take_cbcEnc_pad key iv hy, hxy]

/-! ## The two commands -/

theorem cbcDecrypt_of_badLength {c : List Byte} (key iv : Block) (h : c.length = 0 ∨ c.length % 16 ≠ 0) :
    cbcDecrypt key iv c = .err .badCipherLength := if_pos h

theorem cbcDecrypt_of_blocks {c : List Byte} (key iv : Block) (hne : c.length ≠ 0) (hmul : c.length % 16 = 0) :
    cbcDecrypt key iv c = unpad (cbcDec key iv c) := if_neg (by omega)

theorem length_cbcEnc_pad (key iv : Block) (x : List Byte) :
    (cbcEnc key iv (pad x)).length = 16 * (x.length / 16 + 1) := length_cbcEnc key iv (length_pad x)

/-- CBC_DECRYPT's function undoes CBC_ENCRYPT's (rule R169). -/
theorem cbcDecrypt_cbcEnc_pad (key iv : Block) (x : List Byte) : cbcDecrypt key iv (cbcEnc key iv (pad x)) = .ok x := by
  have hlen := length_cbcEnc_pad key iv x
  rw [cbcDecrypt_of_blocks key iv (by omega) (by omega), cbcDec_cbcEnc key iv (length_pad x), unpad_pad]

/-- Settles O21: CBC_ENCRYPT's function never fails, and its result has the length of the padded input. -/
theorem cbcEncryptPadsAndChains : Obligations.CbcEncryptPadsAndChains := by
  refine ⟨decode_eq_ok.mpr rfl, fun s hfits => ?_⟩
  have hlen := length_cbcEnc_pad s.params.key s.params.iv s.input
  refine ⟨fun hroom => ?delivers, fun hroom => ?capacity⟩
  case delivers =>
    obtain ⟨t, hstep, hdelivers⟩ := exec_delivers (i := .cbcEncrypt) hfits rfl (hlen.trans_le hroom)
    have ⟨_, houtLen, _⟩ := hdelivers
    exact ⟨t, hstep, hdelivers, houtLen.trans hlen⟩
  case capacity => exact exec_overflows (i := .cbcEncrypt) hfits rfl (hroom.trans_eq hlen.symm)

/-- Settles O20: past the check on the length, CBC_DECRYPT is Unpad of the plaintext, whose checks O35 states. -/
theorem cbcDecryptUnpadsThePlaintext : Obligations.CbcDecryptUnpadsThePlaintext := by
  refine ⟨decode_eq_ok.mpr rfl, fun s p n hfits hp hn => ⟨fun hbad => ?badLength, fun hne hmul => ?blocks⟩⟩
  case badLength => exact exec_reports (i := .cbcDecrypt) hfits (cbcDecrypt_of_badLength _ _ hbad)
  case blocks =>
    have hlen : p.length = s.input.length := by
      rw [hp, length_cbcDec (m := s.input.length / 16) _ _ (by omega)]
      omega
    have hunpad : cbcDecrypt s.params.key s.params.iv s.input = unpad p := hp ▸ cbcDecrypt_of_blocks _ _ hne hmul
    obtain ⟨hlength, hbytes, hpassed⟩ := unpadChecksEveryPaddingByte.1 p n (hlen ▸ hne) (hlen ▸ hmul) hn
    refine ⟨hlen, fun hbad => ?_, fun hpos hmax hbad => ?_, fun hpos hmax hall => ?_⟩
    · exact exec_reports (i := .cbcDecrypt) hfits (hunpad.trans (hlength hbad))
    · exact exec_reports (i := .cbcDecrypt) hfits (hunpad.trans (hbytes hpos hmax hbad))
    · have hok := hunpad.trans (hpassed hpos hmax hall)
      have htake : (p.take (p.length - n)).length = p.length - n := List.length_take_of_le (Nat.sub_le _ _)
      exact ⟨fun hroom => exec_overflows (i := .cbcDecrypt) hfits hok (hroom.trans_eq htake.symm),
        fun hroom => exec_delivers (i := .cbcDecrypt) hfits hok (htake.trans_le hroom)⟩

/-- Settles O27: CBC_ENCRYPT delivers the ciphertext of the padded input, and CBC_DECRYPT's function undoes it. -/
theorem cipherRoundTrip : Obligations.CipherRoundTrip := by
  intro s hfits hin hout
  obtain ⟨t, hstep, ⟨hstatus, -, -, hresult, -⟩, hlen⟩ := (cbcEncryptPadsAndChains.2 s hfits).1 hout
  refine ⟨t, hstep, hstatus, fun u hparams hu => ?_⟩
  have hfitsU : InputFits u := by
    rw [InputFits, hparams, ← length_input, hu, length_result, hlen]
    exact hin
  have hdecrypt : cbcDecrypt u.params.key u.params.iv u.input = .ok s.input := by
    rw [hu, hresult, hparams, cbcDecrypt_cbcEnc_pad]
  have hroomU : s.input.length ≤ outRoom u := by
    rw [outRoom, hparams]
    exact le_trans (by omega) hout
  exact exec_delivers (i := .cbcDecrypt) hfitsU hdecrypt hroomU

end Sys2Proof.Machine
end

section
/-! AES-128: each transformation and the cipher undo their inverses, and the S-box, the row shifts and the key schedule entry by
entry (rules R201 to R213). -/

namespace Sys2Proof.Machine

/-! ## Inverses on finite types (rules R204, R208 and R213)

Bytes and blocks are finite in number, so what undoes a function of bytes or of blocks is undone by it as well. -/

theorem apply_apply_cancel_of_finite {α : Type} [Finite α] {f g : α → α} (h : ∀ x, g (f x) = x) (x : α) : f (g x) = x :=
  have hinv : Function.LeftInverse g f := h
  hinv.rightInverse_of_surjective (Finite.surjective_of_injective hinv.injective) x

theorem Column.finite : Finite Column :=
  Finite.of_surjective (fun b : Byte × Byte × Byte × Byte => (⟨b.1, b.2.1, b.2.2.1, b.2.2.2⟩ : Column))
    fun w => ⟨(w.b0, w.b1, w.b2, w.b3), rfl⟩

theorem Block.finite : Finite Block :=
  have := Column.finite
  Finite.of_surjective (fun c : Column × Column × Column × Column => (⟨c.1, c.2.1, c.2.2.1, c.2.2.2⟩ : Block))
    fun s => ⟨(s.c0, s.c1, s.c2, s.c3), rfl⟩

@[simp] theorem sbox_invSbox (a : Byte) : sbox (invSbox a) = a := apply_apply_cancel_of_finite invSbox_sbox a

@[simp] theorem mixColumns_invMixColumns (s : Block) : mixColumns (invMixColumns s) = s :=
  have := Block.finite
  apply_apply_cancel_of_finite invMixColumns_mixColumns s

@[simp] theorem aesEnc_aesDec (k y : Block) : aesEnc k (aesDec k y) = y :=
  have := Block.finite
  apply_apply_cancel_of_finite (aesDec_aesEnc k) y

/-- Settles O41: the table of R203 found again entry by entry in that of R204, and bytes are finite in number. -/
theorem inverseSboxInverts : Obligations.InverseSboxInverts := fun a => ⟨invSbox_sbox a, sbox_invSbox a⟩

/-- Settles O42: `invMixColumns_mixColumns` from the product of the two matrices, and blocks are finite in number. -/
theorem mixColumnsInverts : Obligations.MixColumnsInverts := fun s =>
  ⟨invMixColumns_mixColumns s, mixColumns_invMixColumns s⟩

/-- Settles O39: `aesDec_aesEnc` cancels the rounds one by one, and blocks are finite in number. -/
theorem aesInverseLaw : Obligations.AesInverseLaw := fun k x => ⟨aesDec_aesEnc k x, aesEnc_aesDec k x⟩

/-! ## The S-box (rule R203) -/

/-- The affine map of rule R203: the sum over the bits `i`, `i + 4`, `i + 5`, `i + 6` and `i + 7` is a sum of rotations. -/
def affineImage (t : Byte) : Byte :=
  t ^^^ t.rotateLeft 4 ^^^ t.rotateLeft 3 ^^^ t.rotateLeft 2 ^^^ t.rotateLeft 1 ^^^ 0x63

/-- The inverse of the affine map. -/
def affinePreimage (b : Byte) : Byte := b.rotateLeft 1 ^^^ b.rotateLeft 3 ^^^ b.rotateLeft 6 ^^^ 0x05

theorem getLsbD_affineImage (t : Byte) {i : Nat} (hi : i < 8) : (affineImage t).getLsbD i =
    (t.getLsbD i ^^ t.getLsbD ((i + 4) % 8) ^^ t.getLsbD ((i + 5) % 8) ^^ t.getLsbD ((i + 6) % 8) ^^
      t.getLsbD ((i + 7) % 8) ^^ (0x63#8).getLsbD i) := by
  interval_cases i <;> simp [affineImage]

theorem affineImage_affinePreimage : ∀ b : Byte, affineImage (affinePreimage b) = b := by decide +kernel

theorem affinePreimage_sbox_zero : affinePreimage (sbox 0) = 0 := by decide

/-- The table, entry by entry: the byte it is the affine image of is the inverse in the field of rule R202. -/
theorem gmul_affinePreimage_sbox : ∀ a : Byte, a ≠ 0 → gmul a (affinePreimage (sbox a)) = 0x01 := by decide +kernel

/-- Settles O40: the affine map has an inverse, and the inverse image of the table's entry is the inverse in the field. -/
theorem sboxIsTheAffineImage : Obligations.SboxIsTheAffineImage := by
  intro a
  refine ⟨affinePreimage (sbox a), ?zero, gmul_affinePreimage_sbox a, fun i hi => ?bits⟩
  case zero =>
    rintro rfl
    exact affinePreimage_sbox_zero
  case bits => rw [← getLsbD_affineImage _ hi, affineImage_affinePreimage]

/-! ## Entries of a block (rules R201 and R207) -/

section
variable (s : Block) {r c : Nat} (hr : r < 4) (hc : c < 4)
include hr hc

theorem stateByte_shiftRows : stateByte (shiftRows s) r c = stateByte s r ((c + r) % 4) := by
  interval_cases r <;> interval_cases c <;> rfl

theorem stateByte_invShiftRows : stateByte (invShiftRows s) r c = stateByte s r ((c + 4 - r) % 4) := by
  interval_cases r <;> interval_cases c <;> rfl

theorem Block.bytes_getElem? : (Block.bytes s)[r + 4 * c]? = some (stateByte s r c) := by
  interval_cases r <;> interval_cases c <;> rfl

end

/-- Settles O43, one entry of one row or one byte at a time. -/
theorem rowShiftsAndBlockOrder : Obligations.RowShiftsAndBlockOrder := fun s _ _ hr hc =>
  ⟨stateByte_shiftRows s hr hc, stateByte_invShiftRows s hr hc, Block.bytes_getElem? s hr hc, splitBlocks_joinBlocks [s]⟩

/-! ## The key schedule (rule R210) -/

theorem scheduleWord_eq (k : Block) (j : Nat) {c : Nat} (hc : c < 4) :
    scheduleWord k (4 * j + c) = blockColumn (roundKey k j) c := by
  rw [scheduleWord, Nat.mul_add_div (by decide), Nat.div_eq_of_lt hc, Nat.add_zero, Nat.mul_add_mod, Nat.mod_eq_of_lt hc]

theorem scheduleWord_four_mul (k : Block) (j : Nat) : scheduleWord k (4 * j) = blockColumn (roundKey k j) 0 :=
  scheduleWord_eq k j (by decide : 0 < 4)

/-- The first word of a round key takes the last word of the one before, transformed. -/
theorem scheduleWord_first (k : Block) (j : Nat) :
    scheduleWord k (4 * (j + 1)) =
      Column.xor (scheduleWord k (4 * j)) (Column.xor (subWord (rotWord (scheduleWord k (4 * j + 3)))) (rcon j)) := by
  rw [scheduleWord_four_mul, scheduleWord_four_mul, scheduleWord_eq k j (by decide : 3 < 4)]
  rfl

/-- Each later word of a round key takes the word before it. -/
theorem scheduleWord_later (k : Block) (j : Nat) {c : Nat} (hc : c < 3) :
    scheduleWord k (4 * (j + 1) + (c + 1)) =
      Column.xor (scheduleWord k (4 * j + (c + 1))) (scheduleWord k (4 * (j + 1) + c)) := by
  rw [scheduleWord_eq k _ (by omega), scheduleWord_eq k _ (by omega), scheduleWord_eq k _ (by omega)]
  interval_cases c <;> rfl

/-- The recurrence of rule R210, at every word after the key. -/
theorem scheduleWord_recurrence (k : Block) {i : Nat} (hi : 4 ≤ i) :
    scheduleWord k i =
      Column.xor (scheduleWord k (i - 4))
        (if i % 4 = 0 then Column.xor (subWord (rotWord (scheduleWord k (i - 1)))) (rcon (i / 4 - 1))
         else scheduleWord k (i - 1)) := by
  obtain ⟨j, c, hc, rfl⟩ : ∃ j c, c < 4 ∧ i = 4 * (j + 1) + c := ⟨i / 4 - 1, i % 4, by omega, by omega⟩
  have hback : 4 * (j + 1) + c - 4 = 4 * j + c := by omega
  rw [hback]
  cases c with
  | zero =>
    have hprev : 4 * (j + 1) + 0 - 1 = 4 * j + 3 := by omega
    have hround : (4 * (j + 1) + 0) / 4 - 1 = j := by omega
    rw [if_pos (by omega), hprev, hround]
    exact scheduleWord_first k j
  | succ c =>
    rw [if_neg (by omega)]
    exact scheduleWord_later k j (Nat.lt_of_succ_lt_succ hc)

theorem roundKey_eq (k : Block) (j : Nat) :
    roundKey k j =
      ⟨scheduleWord k (4 * j), scheduleWord k (4 * j + 1), scheduleWord k (4 * j + 2), scheduleWord k (4 * j + 3)⟩ := by
  rw [scheduleWord_four_mul, scheduleWord_eq k j (by decide : 1 < 4), scheduleWord_eq k j (by decide : 2 < 4),
    scheduleWord_eq k j (by decide : 3 < 4)]
  rfl

/-- Settles O44, the recurrence by `scheduleWord_recurrence`. -/
theorem keyScheduleRecurrence : Obligations.KeyScheduleRecurrence := by
  refine ⟨fun _ _ _ _ => ⟨rfl, rfl⟩, fun k i hi => ?key, fun k i hi _ => scheduleWord_recurrence k hi, roundKey_eq,
    by decide⟩
  case key =>
    have hword := scheduleWord_eq k 0 hi
    rwa [Nat.mul_zero, Nat.zero_add] at hword

end Sys2Proof.Machine
end

section
/-! The codec of the length digits: where the scan ends, which digits are written, and the two commands (rules R250 to R255). -/

namespace Sys2Proof.Machine

/-! ## The scan for the terminator (rule R251) -/

theorem termIndex_cons_of_set {d : Byte} (hd : d.getLsbD 7 = true) (ds : List Byte) :
    termIndex (d :: ds) = (termIndex ds).map (· + 1) := if_pos hd

theorem termIndex_cons_of_clear {d : Byte} (hd : d.getLsbD 7 = false) (ds : List Byte) :
    termIndex (d :: ds) = some 0 := if_neg (ne_true_of_eq_false hd)

/-- The scan is the library's search for the first byte with bit 7 clear. -/
theorem termIndex_eq_findIdx? (b : List Byte) : termIndex b = b.findIdx? (fun d => !d.getLsbD 7) := by
  induction b with
  | nil => rfl
  | cons d ds ih =>
    rw [List.findIdx?_cons]
    cases hd : d.getLsbD 7 with
    | false => exact termIndex_cons_of_clear hd ds
    | true => rw [termIndex_cons_of_set hd, ih]; rfl

theorem termIndex_eq_none_iff {b : List Byte} : termIndex b = none ↔ ∀ d ∈ b, d.getLsbD 7 = true := by
  simp only [termIndex_eq_findIdx?, List.findIdx?_eq_none_iff, Bool.not_eq_false']

theorem termIndex_eq_some_iff {b : List Byte} {t : Nat} :
    termIndex b = some t ↔
      (∃ d, b[t]? = some d ∧ d.getLsbD 7 = false) ∧ ∀ i, i < t → ∃ d, b[i]? = some d ∧ d.getLsbD 7 = true := by
  simp only [termIndex_eq_findIdx?, List.findIdx?_eq_some_iff_getElem, Bool.not_eq_true', Bool.not_eq_false]
  constructor
  · rintro ⟨ht, hclear, hset⟩
    exact ⟨⟨b[t], List.getElem?_eq_getElem ht, hclear⟩,
      fun i hi => ⟨b[i], List.getElem?_eq_getElem (hi.trans ht), hset i hi⟩⟩
  · rintro ⟨⟨d, hd, hclear⟩, hset⟩
    obtain ⟨ht, rfl⟩ := List.getElem?_eq_some_iff.mp hd
    refine ⟨ht, hclear, fun i hi => ?_⟩
    obtain ⟨e, he, hbit⟩ := hset i hi
    obtain ⟨_, rfl⟩ := List.getElem?_eq_some_iff.mp he
    exact hbit

/-- Settles O32, from what the library says of its search. -/
theorem termIndexIsTheFirstTerminator : Obligations.TermIndexIsTheFirstTerminator :=
  fun _ => ⟨fun _ => termIndex_eq_some_iff, termIndex_eq_none_iff⟩

section
variable {pre : List Byte} {d : Byte} (hpre : ∀ e ∈ pre, e.getLsbD 7 = true) (hd : d.getLsbD 7 = false) (rest : List Byte)
include hpre hd

/-- Nothing behind the terminator moves the end of the scan. -/
theorem termIndex_append_cons : termIndex (pre ++ d :: rest) = some pre.length := by
  induction pre with
  | nil => exact termIndex_cons_of_clear hd rest
  | cons e pre ih =>
    obtain ⟨he, hpre⟩ := List.forall_mem_cons.mp hpre
    rw [List.cons_append, termIndex_cons_of_set he, ih hpre]
    rfl

/-- LebDecode strips any digits that end in a terminator, whatever their value (rule R252, conflict C6). -/
theorem lebDecode_append_cons : lebDecode (pre ++ d :: rest) = .ok rest := by
  have hpast : (pre ++ d :: rest).drop (pre.length + 1) = rest := by simp
  rw [lebDecode, termIndex_append_cons hpre hd]
  exact congrArg Result.ok hpast

end

theorem lebDecode_of_no_terminator {b : List Byte} (h : ∀ d ∈ b, d.getLsbD 7 = true) : lebDecode b = .err .noTerminator := by
  rw [lebDecode, termIndex_eq_none_iff.mpr h]

/-! ## The loop that writes the length digits (rule R253) -/

theorem lebLoop_of_le (fuel : Nat) {n : Nat} (h : n ≤ 0x7F) : lebLoop fuel n = [BitVec.ofNat 8 n] := by
  cases fuel with
  | zero => rfl
  | succ fuel => exact if_neg (Nat.not_lt.mpr h)

theorem lebLoop_succ_of_gt (fuel : Nat) {n : Nat} (h : 0x7F < n) :
    lebLoop (fuel + 1) n = (0x80#8 ||| BitVec.ofNat 8 (n &&& 0x7F)) :: lebLoop fuel (n >>> 7) := if_pos h

theorem shiftRight_seven (n : Nat) : n >>> 7 = n / 128 := Nat.shiftRight_eq_div_pow n 7

/-- A loop that starts with enough fuel never runs out of it (log entry 11). -/
theorem lebLoop_eq_lebDigits {fuel n : Nat} (h : n ≤ fuel) : lebLoop fuel n = lebDigits n := by
  induction n using Nat.strong_induction_on generalizing fuel with
  | _ n ih =>
    by_cases hn : n ≤ 0x7F
    · rw [lebDigits, lebLoop_of_le fuel hn, lebLoop_of_le n hn]
    · obtain ⟨fuel, rfl⟩ : ∃ k, fuel = k + 1 := ⟨fuel - 1, by omega⟩
      obtain ⟨m, rfl⟩ : ∃ m, n = m + 1 := ⟨n - 1, by omega⟩
      have hshift : (m + 1) >>> 7 ≤ m := by rw [shiftRight_seven]; omega
      rw [lebDigits, lebLoop_succ_of_gt fuel (by omega), lebLoop_succ_of_gt m (by omega),
        ih _ (Nat.lt_succ_of_le hshift) (hshift.trans (Nat.le_of_succ_le_succ h)),
        ih _ (Nat.lt_succ_of_le hshift) hshift]

theorem lebDigits_of_le {n : Nat} (h : n ≤ 0x7F) : lebDigits n = [BitVec.ofNat 8 n] := lebLoop_of_le n h

theorem lebDigits_of_gt {n : Nat} (h : 0x7F < n) :
    lebDigits n = (0x80#8 ||| BitVec.ofNat 8 (n &&& 0x7F)) :: lebDigits (n >>> 7) := by
  have hshift : n >>> 7 ≤ n - 1 := by rw [shiftRight_seven]; omega
  rw [← lebLoop_eq_lebDigits hshift, ← lebLoop_succ_of_gt (n - 1) h, Nat.sub_add_cancel (by omega), lebDigits]

theorem lebDigits_eq (n : Nat) :
    lebDigits n =
      if n > 0x7F then (0x80#8 ||| BitVec.ofNat 8 (n &&& 0x7F)) :: lebDigits (n >>> 7) else [BitVec.ofNat 8 n] := by
  split
  case isTrue h => exact lebDigits_of_gt h
  case isFalse h => exact lebDigits_of_le (Nat.not_lt.mp h)

/-- Induction along the loop of rule R253: the last round, and a round before others. -/
theorem lebDigits_induction {P : Nat → Prop} (last : ∀ n, n ≤ 0x7F → P n) (more : ∀ n, 0x7F < n → P (n >>> 7) → P n)
    (n : Nat) : P n := by
  induction n using Nat.strong_induction_on with
  | _ n ih =>
    rcases Nat.lt_or_ge 0x7F n with h | h
    · exact more n h (ih _ (by rw [shiftRight_seven]; omega))
    · exact last n h

/-! ## The bits and the value of a digit (rule R250) -/

theorem continuationDigit_bit7 (n : Nat) : (0x80#8 ||| BitVec.ofNat 8 (n &&& 0x7F)).getLsbD 7 = true := by simp

theorem lastDigit_bit7 {n : Nat} (h : n ≤ 0x7F) : (BitVec.ofNat 8 n).getLsbD 7 = false := by
  rw [BitVec.getLsbD_ofNat, Nat.testBit_lt_two_pow (i := 7) (Nat.lt_succ_of_le h), Bool.and_false]

theorem and_low7_toNat (d : Byte) : (d &&& 0x7F).toNat = d.toNat % 128 := Nat.and_two_pow_sub_one_eq_mod d.toNat 7

theorem continuationDigit_value (n : Nat) :
    ((0x80#8 ||| BitVec.ofNat 8 (n &&& 0x7F)) &&& 0x7F).toNat = n % 128 := by
  have hlow : n &&& 0x7F = n % 128 := Nat.and_two_pow_sub_one_eq_mod n 7
  have hor : 0x80 ||| n % 128 = 0x80 + n % 128 := (Nat.two_pow_add_eq_or_of_lt (i := 7) (Nat.mod_lt n (by decide)) 1).symm
  rw [and_low7_toNat, BitVec.toNat_or, hlow, BitVec.toNat_ofNat (x := n % 128), Nat.mod_eq_of_lt (b := 2 ^ 8) (by omega)]
  exact (congrArg (· % 128) hor).trans (by omega)

theorem lastDigit_value {n : Nat} (h : n ≤ 0x7F) : (BitVec.ofNat 8 n &&& 0x7F).toNat = n := by
  rw [and_low7_toNat, BitVec.toNat_ofNat]
  omega

/-! ## The length digits: number, value and form (rules R253 and R254) -/

/-- The value of the length digits is the length. -/
@[simp] theorem lebValue_lebDigits (n : Nat) : lebValue (lebDigits n) = n := by
  induction n using lebDigits_induction with
  | last n h => rw [lebDigits_of_le h, lebValue, lebValue, lastDigit_value h, Nat.mul_zero, Nat.add_zero]
  | more n h ih => rw [lebDigits_of_gt h, lebValue, ih, continuationDigit_value, shiftRight_seven, Nat.mod_add_div]

theorem length_lebDigits_pos (n : Nat) : 0 < (lebDigits n).length := by
  rw [lebDigits_eq]
  split <;> exact Nat.zero_lt_succ _

theorem length_lebDigits_le_succ_iff {n k : Nat} : (lebDigits n).length ≤ k + 1 ↔ n < 128 ^ (k + 1) := by
  induction n using lebDigits_induction generalizing k with
  | last n h =>
    have hpow : 128 ≤ 128 ^ (k + 1) := Nat.le_self_pow (Nat.succ_ne_zero k) 128
    rw [lebDigits_of_le h, List.length_singleton]
    omega
  | more n h ih =>
    rw [lebDigits_of_gt h, List.length_cons, Nat.succ_le_succ_iff]
    cases k with
    | zero =>
      have hpos := length_lebDigits_pos (n >>> 7)
      omega
    | succ k => rw [ih, shiftRight_seven, Nat.div_lt_iff_lt_mul (by decide), ← Nat.pow_succ]

/-- The number of digits is the least `k ≥ 1` with `n < 128^k`. -/
theorem length_lebDigits_eq_succ_iff {n k : Nat} :
    (lebDigits n).length = k + 1 ↔ (k = 0 ∨ 128 ^ k ≤ n) ∧ n < 128 ^ (k + 1) := by
  have hpos := length_lebDigits_pos n
  rw [← length_lebDigits_le_succ_iff]
  cases k with
  | zero => omega
  | succ k =>
    rw [← Nat.not_lt, ← length_lebDigits_le_succ_iff]
    omega

/-- Only the last of the length digits is a terminator, and it is zero only for the length 0. -/
theorem exists_lebDigits_eq (n : Nat) :
    ∃ pre d, lebDigits n = pre ++ [d] ∧ (∀ e ∈ pre, e.getLsbD 7 = true) ∧ d.getLsbD 7 = false ∧ (n ≠ 0 → d ≠ 0) := by
  induction n using lebDigits_induction with
  | last n h =>
    refine ⟨[], BitVec.ofNat 8 n, lebDigits_of_le h, List.forall_mem_nil _, lastDigit_bit7 h, fun hne hzero => hne ?_⟩
    rw [← lastDigit_value h, hzero]
    rfl
  | more n h ih =>
    obtain ⟨pre, d, hdigits, hpre, hd, hne⟩ := ih
    refine ⟨_ :: pre, d, by rw [lebDigits_of_gt h, hdigits, List.cons_append],
      List.forall_mem_cons.mpr ⟨continuationDigit_bit7 n, hpre⟩, hd, fun _ => hne ?_⟩
    rw [shiftRight_seven]
    omega

theorem lebDecode_lebDigits_append (n : Nat) (x : List Byte) : lebDecode (lebDigits n ++ x) = .ok x := by
  obtain ⟨pre, d, hdigits, hpre, hd, -⟩ := exists_lebDigits_eq n
  rw [hdigits, List.append_assoc]
  exact lebDecode_append_cons hpre hd x

/-- Length digits that end in a zero digit are those of the length 0, one digit. -/
theorem eq_nil_of_lebDigits_eq_concat_zero {n : Nat} {pre : List Byte} (h : lebDigits n = pre ++ [0]) : pre = [] := by
  obtain ⟨pre', d, hdigits, -, -, hne⟩ := exists_lebDigits_eq n
  obtain ⟨-, hzero⟩ := List.append_singleton_inj.mp (hdigits.symm.trans h)
  obtain rfl : n = 0 := not_not.mp fun hn => hne hn hzero
  exact (List.append_singleton_inj.mp (h.symm.trans (lebDigits_of_le (Nat.zero_le _)))).1

/-- What LebEncode writes before the payload is the digits of the payload's length and nothing else. -/
theorem lebEncode_eq_ok_iff {pre x : List Byte} {d : Byte} :
    lebEncode x = .ok (pre ++ d :: x) ↔ lebDigits x.length = pre ++ [d] := by
  rw [lebEncode, Result.ok.injEq, List.append_cons, List.append_cancel_right_eq]

/-- Settles O33: the number of digits by its bounds, and the rest from the form of the digits. -/
theorem lengthDigitCount : Obligations.LengthDigitCount := by
  intro x
  obtain ⟨pre, d, hdigits, hpre, hd, -⟩ := exists_lebDigits_eq x.length
  have hlength : (lebDigits x.length).length = pre.length + 1 := by rw [hdigits, List.length_append, List.length_singleton]
  have hone : x.length < 128 ^ 1 → (lebDigits x.length).length = 1 := fun hhigh =>
    length_lebDigits_eq_succ_iff.mpr ⟨.inl rfl, hhigh⟩
  have hmore (k : Nat) (hlow : 128 ^ k ≤ x.length) (hhigh : x.length < 128 ^ (k + 1)) :
      (lebDigits x.length).length = k + 1 := length_lebDigits_eq_succ_iff.mpr ⟨.inr hlow, hhigh⟩
  refine ⟨hone, hmore 1, hmore 2, hmore 3, hmore 4, fun i hi => ?continuation, ?last, ?scan⟩
  case continuation =>
    have hlt : i < pre.length := by omega
    exact ⟨pre[i], by rw [hdigits, List.getElem?_append_left hlt, List.getElem?_eq_getElem hlt],
      hpre _ (List.getElem_mem hlt)⟩
  case last => exact ⟨d, by rw [hlength, hdigits, Nat.add_sub_cancel, List.getElem?_concat_length], hd⟩
  case scan =>
    rw [hlength, hdigits, List.append_assoc, Nat.add_sub_cancel]
    exact termIndex_append_cons hpre hd x

/-! ## The two commands -/

/-- Settles O22: the scan finds no terminator, or the first one. -/
theorem lebDecodeScansToTheTerminator : Obligations.LebDecodeScansToTheTerminator := by
  refine ⟨decode_eq_ok.mpr rfl, fun s hfits => ⟨fun hset => ?_, fun pre d rest hinput hpre hd => ?_⟩⟩
  · exact exec_reports (i := .lebDecode) hfits (lebDecode_of_no_terminator hset)
  · have hdecode : lebDecode s.input = .ok rest := hinput ▸ lebDecode_append_cons hpre hd rest
    exact ⟨exec_delivers (i := .lebDecode) hfits hdecode, exec_overflows (i := .lebDecode) hfits hdecode⟩

/-- Settles O23: LebEncode never fails, and the digits are those of the loop without its bound. -/
theorem lebEncodeWritesTheLength : Obligations.LebEncodeWritesTheLength := by
  refine ⟨decode_eq_ok.mpr rfl, lebDigits_eq, fun n k hk => ?length, lebValue_lebDigits, fun s hfits => ?result⟩
  case length =>
    obtain ⟨j, rfl⟩ := Nat.exists_eq_add_of_le' hk
    exact length_lebDigits_le_succ_iff
  case result =>
    rw [← List.length_append]
    exact ⟨exec_delivers (i := .lebEncode) hfits rfl, exec_overflows (i := .lebEncode) hfits rfl⟩

/-- Settles O28: the scan stops where the length digits end; and the digits written have the value of the payload's length, and
more than one of them do not end in a zero digit. -/
theorem lengthPrefixRoundTrip : Obligations.LengthPrefixRoundTrip := by
  refine ⟨fun s hin hout => ?roundTrip,
    fun pre x d hpre hd => ⟨lebDecode_append_cons hpre hd x, fun hbad hencode => ?converse⟩⟩
  case roundTrip =>
    have hfits : InputFits s := by
      rw [length_input] at hin
      exact (Nat.le_add_right _ _).trans hin
    rw [Nat.add_comm, ← List.length_append] at hin hout
    obtain ⟨t, hstep, hstatus, -, -, hresult, -⟩ := exec_delivers (i := .lebEncode) hfits rfl hout
    refine ⟨t, hstep, hstatus, fun u hparams hu => ?_⟩
    have hfitsU : InputFits u := by
      rw [InputFits, hparams, ← length_input, hu, hresult]
      exact hin
    have hdecode : lebDecode u.input = .ok s.input := by rw [hu, hresult, lebDecode_lebDigits_append]
    have hroomU : s.input.length ≤ outRoom u := by
      rw [outRoom, hparams]
      exact (List.sublist_append_right _ _).length_le.trans hout
    exact exec_delivers (i := .lebDecode) hfitsU hdecode hroomU
  case converse =>
    have hdigits := lebEncode_eq_ok_iff.mp hencode
    rcases hbad with ⟨hne, rfl⟩ | hvalue
    · exact hne (eq_nil_of_lebDigits_eq_concat_zero hdigits)
    · exact hvalue (hdigits ▸ lebValue_lebDigits x.length)

end Sys2Proof.Machine
end

section
/-! The pipeline: the two composite commands, their stages in turn, and their round trips (rules R280 to R283). -/

namespace Sys2Proof.Machine

/-! ## The stages around the length digits (rules R281 and R282) -/

/-- The last two stages of XML_TO_QBL: a LenXmlBuffer encrypted and framed (rule R282). -/
def sealLenXml (key iv : Block) (l : List Byte) : Result := envEncode (cbcEnc key iv (pad l))

/-- The first two stages of QBL_TO_XML: the LenXmlBuffer inside a qbl buffer (rule R281). -/
def openQbl (key iv : Block) (q : List Byte) : Result := (envDecode q).thenRun (cbcDecrypt key iv)

@[simp] theorem thenRun_err (e : CommandError) (f : List Byte → Result) : (Result.err e).thenRun f = .err e := rfl

section
variable {key iv : Block} {q c l x : List Byte}

/-- Neither LebEncode nor CbcEncrypt fails, so that XML_TO_QBL's function is its last stage on their results. -/
theorem xmlToQbl_eq_sealLenXml : xmlToQbl key iv x = sealLenXml key iv (lebDigits x.length ++ x) := rfl

theorem qblToXml_eq_openQbl : qblToXml key iv q = (openQbl key iv q).thenRun lebDecode := rfl

theorem openQbl_of_envDecode (h : envDecode q = .ok c) : openQbl key iv q = cbcDecrypt key iv c := by
  rw [openQbl, h, thenRun_ok]

theorem qblToXml_of_envDecode_err {e : CommandError} (h : envDecode q = .err e) : qblToXml key iv q = .err e := by
  rw [qblToXml_eq_openQbl, openQbl, h, thenRun_err, thenRun_err]

theorem qblToXml_of_openQbl_err {e : CommandError} (h : openQbl key iv q = .err e) : qblToXml key iv q = .err e := by
  rw [qblToXml_eq_openQbl, h, thenRun_err]

theorem qblToXml_of_openQbl (h : openQbl key iv q = .ok l) : qblToXml key iv q = lebDecode l := by
  rw [qblToXml_eq_openQbl, h, thenRun_ok]

theorem qblToXml_of_cbcDecrypt (henv : envDecode q = .ok c) (hdec : cbcDecrypt key iv c = .ok l) :
    qblToXml key iv q = lebDecode l :=
  qblToXml_of_openQbl ((openQbl_of_envDecode henv).trans hdec)

/-- The envelope and the cipher round trips together (rules R134 and R169). -/
theorem openQbl_of_sealLenXml (h : sealLenXml key iv l = .ok q) : openQbl key iv q = .ok l := by
  rw [openQbl_of_envDecode (envDecode_eq_ok_iff_envEncode.mpr h), cbcDecrypt_cbcEnc_pad]

/-- A qbl buffer holds one LenXmlBuffer only. -/
theorem sealLenXml_injective {l' : List Byte} (h : sealLenXml key iv l = .ok q) (h' : sealLenXml key iv l' = .ok q) :
    l = l' :=
  Result.ok.inj ((openQbl_of_sealLenXml h).symm.trans (openQbl_of_sealLenXml h'))

theorem length_of_sealLenXml (h : sealLenXml key iv l = .ok q) : q.length = 16 * (l.length / 16 + 1) + 13 := by
  obtain ⟨-, rfl⟩ := envEncode_eq_ok.mp h
  rw [length_envFrame, length_cbcEnc_pad]

/-! ## The two functions against each other (rule R283) -/

/-- Rule R283 (a): the scan stops where the length digits of XML_TO_QBL end. -/
theorem qblToXml_of_xmlToQbl (h : xmlToQbl key iv x = .ok q) : qblToXml key iv q = .ok x := by
  rw [qblToXml_of_openQbl (openQbl_of_sealLenXml h), lebDecode_lebDigits_append]

/-- Rule R283 (b): XML_TO_QBL rebuilds a qbl buffer exactly when LEB_ENCODE rebuilds the LenXmlBuffer inside it. -/
theorem xmlToQbl_eq_ok_iff_lebEncode (h : sealLenXml key iv l = .ok q) :
    xmlToQbl key iv x = .ok q ↔ lebEncode x = .ok l := by
  rw [xmlToQbl_eq_sealLenXml, lebEncode, Result.ok.injEq]
  constructor
  · exact fun hx => sealLenXml_injective hx h
  · rintro rfl
    exact h

/-- No stage of XML_TO_QBL shortens the input. -/
theorem length_le_of_xmlToQbl (h : xmlToQbl key iv x = .ok q) : x.length ≤ q.length := by
  rw [length_of_sealLenXml h, List.length_append]
  omega

end

/-- The LenXmlBuffer of vector V42d, whose digits are non-minimal, decodes inside a qbl buffer that XML_TO_QBL does not
rebuild. -/
theorem exists_qblToXml_not_rebuilt (key iv : Block) : ∃ y x, qblToXml key iv y = .ok x ∧ xmlToQbl key iv x ≠ .ok y := by
  obtain ⟨hdecode, hencode⟩ := lengthPrefixRoundTrip.2 [0x80] [0x41] 0x00 (by decide) (by decide)
  have hseal : sealLenXml key iv [0x80, 0x00, 0x41] = .ok (envFrame (cbcEnc key iv (pad [0x80, 0x00, 0x41]))) :=
    envEncode_eq_ok.mpr ⟨by rw [length_cbcEnc_pad]; decide, rfl⟩
  refine ⟨_, [0x41], (qblToXml_of_openQbl (openQbl_of_sealLenXml hseal)).trans hdecode, fun hrebuilt => ?_⟩
  exact hencode (.inl ⟨List.cons_ne_nil _ _, rfl⟩) ((xmlToQbl_eq_ok_iff_lebEncode hseal).mp hrebuilt)

/-! ## The two commands -/

/-- Settles O24: an error of a stage is the error of the command, and when every stage succeeds the outcome is LebDecode's. -/
theorem qblToXmlRunsTheDecoders : Obligations.QblToXmlRunsTheDecoders := by
  refine ⟨decode_eq_ok.mpr rfl, fun s hfits => ⟨fun e henv => ?envelope, fun c e henv hdec => ?cipher,
    fun c l e henv hdec hleb => ?digits, fun c l x henv hdec hleb => ?result⟩⟩
  case envelope => exact exec_reports (i := .qblToXml) hfits (qblToXml_of_envDecode_err henv)
  case cipher =>
    exact exec_reports (i := .qblToXml) hfits (qblToXml_of_openQbl_err ((openQbl_of_envDecode henv).trans hdec))
  case digits => exact exec_reports (i := .qblToXml) hfits ((qblToXml_of_cbcDecrypt henv hdec).trans hleb)
  case result =>
    have hrun := (qblToXml_of_cbcDecrypt henv hdec).trans hleb
    exact ⟨exec_delivers (i := .qblToXml) hfits hrun, exec_overflows (i := .qblToXml) hfits hrun⟩

/-- Settles O25: only EnvEncode can fail, and it is given the `m` bytes of the ciphertext. -/
theorem xmlToQblRunsTheEncoders : Obligations.XmlToQblRunsTheEncoders := by
  refine ⟨decode_eq_ok.mpr rfl, fun s n m c hfits hn hm hc => ?_⟩
  have hrun : xmlToQbl s.params.key s.params.iv s.input = envEncode c := by
    rw [xmlToQbl_eq_sealLenXml, sealLenXml, ← hn, ← hc]
  obtain rfl : c.length = m := by rw [hc, length_cbcEnc_pad, List.length_append, ← hn, Nat.add_comm _ n, hm]
  have hframe (hlen : c.length + 7 ≤ 0xFFFFFFFF) : xmlToQbl s.params.key s.params.iv s.input = .ok (envFrame c) :=
    hrun.trans (envEncode_eq_ok.mpr ⟨hlen, rfl⟩)
  refine ⟨fun hroom => ?frame, fun hover => ?overflow, fun hlen hroom => ?capacity⟩
  case frame =>
    have hcap : outRoom s < 2 ^ 32 := s.params.outCap.isLt
    obtain ⟨t, hstep, hdelivers⟩ :=
      exec_delivers (i := .xmlToQbl) hfits (hframe (by omega)) ((length_envFrame c).trans_le hroom)
    have ⟨_, houtLen, _⟩ := hdelivers
    exact ⟨t, hstep, houtLen.trans (length_envFrame c), hdelivers⟩
  case overflow => exact exec_reports (i := .xmlToQbl) hfits (hrun.trans (envEncode_of_overflow hover))
  case capacity => exact exec_overflows (i := .xmlToQbl) hfits (hframe hlen) (hroom.trans_eq (length_envFrame c).symm)

/-- Settles O29: QBL_TO_XML's function undoes XML_TO_QBL's, and no buffer of the round trip is longer than the qbl buffer. -/
theorem pipelineRoundTrip : Obligations.PipelineRoundTrip := by
  refine ⟨fun s q hencode hin hout => ?commands, fun key iv y => ?functions, exists_qblToXml_not_rebuilt⟩
  case commands =>
    have hlen := length_le_of_xmlToQbl hencode
    have hfits : InputFits s := by
      rw [InputFits, ← length_input]
      exact hlen.trans hin
    obtain ⟨t, hstep, hdelivers⟩ := exec_delivers (i := .xmlToQbl) hfits hencode hout
    refine ⟨t, hstep, hdelivers, fun u hparams hu => ?_⟩
    have hfitsU : InputFits u := by
      rw [InputFits, hparams, ← length_input, hu]
      exact hin
    have hdecode : qblToXml u.params.key u.params.iv u.input = .ok s.input := by
      rw [hparams, hu, qblToXml_of_xmlToQbl hencode]
    have hroomU : s.input.length ≤ outRoom u := by
      rw [outRoom, hparams]
      exact hlen.trans hout
    exact exec_delivers (i := .qblToXml) hfitsU hdecode hroomU
  case functions =>
    constructor
    · rintro ⟨x, -, hencode⟩
      exact ⟨x, hencode⟩
    · rintro ⟨x, hencode⟩
      exact ⟨x, qblToXml_of_xmlToQbl hencode, hencode⟩

end Sys2Proof.Machine
end

section
/-! The error reports: the codes of ERR_CAUSE, and what a command that fails writes, OUT included (rules R112, R300 and R302). -/

namespace Sys2Proof.Machine

/-- Settles O15: each code is computed from the row's CAUSE and DETAIL, check by check in the order of the table. -/
theorem errorCodesAreTheTable : Obligations.ErrorCodesAreTheTable :=
  ⟨rfl, rfl, rfl, rfl, rfl, rfl, rfl, rfl, rfl, rfl, rfl, rfl, rfl, rfl, rfl, rfl, rfl⟩

/-- A command whose outcome is an error reports it, and every byte of OUT is of the one new draw (rules R112 and R304). -/
theorem exec_reports_and_draws {i : Instr} {s : State} {e : CommandError}
    (h : s.outcome (codecByOp s.params i.op.toNat) = .err e) :
    ∃ t, exec i s = .next t ∧ ReportsError s t e.code ∧ ∀ k, t.outBuf.read k = Config.freeByte s.draws k := by
  refine ⟨s.reportError e, ?_, reportError_reports s e, Memory.read_drawn s.draws⟩
  rw [exec_eq, h, complete_err]

/-- Settles O14: the first check of the outcome is on IN_LEN, before the codec, and the last one on the codec's result. -/
theorem capacityErrorsOfEveryCommand : Obligations.CapacityErrorsOfEveryCommand := by
  refine fun i s => ⟨fun hover => ?input, fun y hfits hcodec hroom => ?result⟩
  case input => exact exec_reports_and_draws (e := .inputOverCap) (outcome_over s _ hover)
  case result =>
    have houtcome : s.outcome (codecByOp s.params i.op.toNat) = .err .resultOverCap := by
      rw [outcome_ok s _ y hfits hcodec, if_pos hroom]
    exact exec_reports_and_draws houtcome

end Sys2Proof.Machine
end

section
/-! Reset and phase BUSY: the table of reset values, what a reset abandons, and what the host's accesses do while a command
runs (rules R340 to R343, R350 and R351). -/

namespace Sys2Proof.Machine

/-! ## Reset (rules R340 to R343) -/

/-- Settles O3: the reset state meets the invariant, so that its registers read as their fields. -/
theorem resetGivesTheTableOfValues : Obligations.ResetGivesTheTableOfValues := by
  obtain ⟨readsByOffset, -⟩ := registerAccessesByOffset
  obtain ⟨hcmd, hstatus, hinLen, houtLen, herrCause, hinCap, houtCap⟩ :=
    readsByOffset State.reset resetSatisfiesMachineInvariant
  refine ⟨hcmd, hstatus, hinLen, houtLen, herrCause, ?inCap, ?outCap, rfl, rfl, Memory.read_drawn 0, Memory.read_drawn 1⟩
  case inCap => exact hinCap.trans (congrArg some Config.params_inCap)
  case outCap => exact houtCap.trans (congrArg some Config.params_outCap)

theorem step_reset {s : State} {ts : List Turn} (h : s.turns = .reset :: ts) :
    step s = .next (s.withTurns ts).resetBlock := by
  rw [step, takeTurn, h]

/-- In phase BUSY no engine turn passes and no host access ends the phase, which leaves the reset and the command step. -/
theorem reset_or_commandStep_of_busy_ends {s t : State} (hbusy : s.busy = true) (hstep : step s = .next t)
    (hidle : t.busy = false) :
    (∃ ts, s.turns = .reset :: ts) ∨
    ∃ ts, (s.turns = [] ∧ ts = [] ∨ s.turns = .engine :: ts) ∧ engineStep (s.withTurns ts) = .next t := by
  rcases step_cases hstep with ⟨r, ts, hts, -, -, hcommand, -⟩ | ⟨ts, -, hnot, -⟩ | ⟨a, ts, r, u, -, ha, rfl⟩ | ⟨ts, hts, -⟩
  · exact .inr ⟨ts, hts, hcommand⟩
  · exact absurd hbusy (Bool.eq_false_iff.mp hnot)
  · have hstays := hostTurn_stays_busy (s := s.withTurns ts) hbusy (hostTurn_answered ha)
    exact absurd hstays (Bool.eq_false_iff.mp hidle)
  · exact .inl ⟨ts, hts⟩

/-- Settles O4: the reset turn gives an idle block with the reset values, whose engine turn passes. -/
theorem resetAbandonsTheCommand : Obligations.ResetAbandonsTheCommand := by
  refine ⟨fun s ts hts => ⟨(s.withTurns ts).resetBlock, step_reset hts, rfl, rfl, rfl, rfl, rfl, rfl, ?input, ?output, rfl, rfl,
    engineTurn_of_idle (resetBlock_busy _)⟩, fun s t => reset_or_commandStep_of_busy_ends⟩
  case input => exact Memory.read_drawn s.draws
  case output => exact Memory.read_drawn (s.draws + 1)

/-! ## Accesses in phase BUSY (rules R350 and R351) -/

/-- Settles O52: the three operations keep a busy state as it is. -/
theorem busyWritesAreDropped : Obligations.BusyWritesAreDropped := by
  refine fun s hbusy => ⟨fun v => ⟨?cmd, ?inLen⟩, fun i b hi => ?input⟩
  case cmd => rw [accessAt_write_reg, regWrite_cmd, startCommand_of_busy s v hbusy, Option.map_some]
  case inLen =>
    have hdropped : regWrite 0x08 v s = some s :=
      (regWrite_offset .inLen v s).trans (congrArg some (writeInLen_of_busy s v hbusy))
    rw [accessAt_write_reg, hdropped, Option.map_some]
  case input => rw [accessAt_write_input, inWrite_of_busy hi hbusy, Option.map_some]

/-- Of the four values of STATUS only 0x1 has BUSY set (rule R36). -/
theorem MachineInv.status_of_busy {s : State} (h : MachineInv s) (hbusy : s.busy = true) : s.status = 0x1 := by
  unfold State.busy at hbusy
  rcases h.statusLegal with hst | hst | hst | hst
  case inr.inl => exact hst
  all_goals
    rw [hst] at hbusy
    exact absurd hbusy (by decide)

/-- Settles O53: the registers read as their fields, which the invariant fixes for STATUS, OUT_LEN and ERR_CAUSE. -/
theorem busyReadsReturn : Obligations.BusyReadsReturn := by
  intro s hinv hbusy
  obtain ⟨readsByOffset, -⟩ := registerAccessesByOffset
  obtain ⟨hcmd, hstatus, hinLen, houtLen, herrCause, hinCap, houtCap⟩ := readsByOffset s hinv
  have hrunning := hinv.status_of_busy hbusy
  obtain ⟨hnoResult, hnoError⟩ := hinv.running hrunning
  rw [hrunning] at hstatus
  rw [hnoResult] at houtLen
  rw [hnoError] at herrCause
  refine ⟨hstatus, houtLen, herrCause, hcmd, hinLen, hinCap, houtCap, fun i hi => ?input, fun i hi => ?output⟩
  case input => rw [accessAt_read_input, inRead_of_lt hi, Option.map_some]
  case output => rw [accessAt_read_output, outRead_of_busy hi hbusy, Option.map_some]

/-! ## A started command ends (rules R85 and R353) -/

/-- The command step always answers, with an idle block. -/
theorem engineStep_ends (s : State) : ∃ t, engineStep s = .next t ∧ t.busy = false :=
  ⟨s.complete (execOutcome s), engineStep_eq_execOutcome s, complete_busy s _⟩

/-- An accepted access takes one step and leaves the command running; an engine turn, a reset or the end of the turns ends
it. -/
theorem run_ends_of_busy {s : State} (ts : List Turn) (hbusy : s.busy = true)
    (haccepted : ∀ x ∈ ts, turnAccepted s.params x = true) :
    ∃ n t, n ≤ ts.length ∧ Sys2Proof.core.run (n + 1) (s.withTurns ts) = .next t ∧ t.busy = false := by
  induction ts generalizing s with
  | nil =>
    obtain ⟨t, hend, hidle⟩ := engineStep_ends (s.withTurns [])
    have hstep := (step_no_turns (withTurns_turns s []) hbusy).trans hend
    exact ⟨0, t, Nat.le_refl 0, run_succ_of_step hstep 0, hidle⟩
  | cons x ts ih =>
    obtain ⟨hx, hts⟩ := List.forall_mem_cons.mp haccepted
    cases x with
    | engine =>
      obtain ⟨t, hend, hidle⟩ := engineStep_ends (s.withTurns ts)
      have hstep := (step_engine (withTurns_turns s (.engine :: ts)) hbusy).trans hend
      exact ⟨0, t, Nat.zero_le _, run_succ_of_step hstep 0, hidle⟩
    | reset =>
      have hstep := step_reset (withTurns_turns s (.reset :: ts))
      exact ⟨0, _, Nat.zero_le _, run_succ_of_step hstep 0, resetBlock_busy _⟩
    | host a =>
      obtain ⟨d, rs, hstep⟩ := step_accepted_of_busy ts hbusy hx
      obtain ⟨n, t, hn, hrun, hidle⟩ := ih (s := s.withOwnFields d ts rs) hbusy hts
      exact ⟨n + 1, t, Nat.succ_le_succ hn, (run_succ_of_step hstep (n + 1)).trans hrun, hidle⟩

/-- Settles O58, by induction on the turns to come. -/
theorem startedCommandsEnd : Obligations.StartedCommandsEnd := by
  intro s hbusy haccepted
  obtain ⟨n, t, hn, hrun, hidle⟩ := run_ends_of_busy s.turns hbusy haccepted
  exact ⟨n + 1, t, Nat.le_add_left 1 n, Nat.succ_le_succ hn, hrun, hidle⟩

end Sys2Proof.Machine
end

section
/-! The host's order for one command: it writes the input bytes, IN_LEN and CMD, and the command step shows the outcome on
those bytes (rules R104, R110, R112 and R344). -/

namespace Sys2Proof.Machine

/-! ## Bytes written one after another (rule R72) -/

/-- The buffer after the bytes `x` are written from index `i` on. -/
def Memory.writeFrom (m : Memory) (i : Nat) : List Byte → Memory
  | [] => m
  | b :: bs => (m.write i b).writeFrom (i + 1) bs

theorem Memory.read_writeFrom_of_lt {m : Memory} {i j : Nat} (x : List Byte) (hwf : m.wf = true) (h : j < i) :
    (m.writeFrom i x).read j = m.read j := by
  induction x generalizing m i with
  | nil => rfl
  | cons b bs ih =>
    rw [Memory.writeFrom, ih (Memory.wf_write m i b hwf) (Nat.lt_succ_of_lt h), Memory.read_write m i j b hwf,
      if_neg (Nat.ne_of_lt h)]

theorem Memory.bytes_succ (m : Memory) (i n : Nat) : m.bytes i (n + 1) = m.read i :: m.bytes (i + 1) n := by
  simp only [Memory.bytes, List.range_succ_eq_map, List.map_cons, List.map_map, Nat.add_zero, Function.comp_def,
    Nat.succ_eq_add_one, Nat.add_assoc, Nat.add_comm 1]

/-- The bytes read back are the bytes written. -/
theorem Memory.bytes_writeFrom {m : Memory} (i : Nat) (x : List Byte) (hwf : m.wf = true) :
    (m.writeFrom i x).bytes i x.length = x := by
  induction x generalizing m i with
  | nil => rfl
  | cons b bs ih =>
    have hwf' := Memory.wf_write m i b hwf
    rw [Memory.writeFrom, List.length_cons, Memory.bytes_succ, ih (i + 1) hwf',
      Memory.read_writeFrom_of_lt bs hwf' (Nat.lt_succ_self i), Memory.read_write m i i b hwf, if_pos rfl]

/-! ## The host's writes as steps (rules R72, R73 and R104) -/

/-- An accepted access at an offset of a space, as the host's step. -/
theorem step_cell {s t : State} {sp : Space} {o : Nat} {op : AccessOp} {ts : List Turn} {r : Reply}
    (h : accessAt sp o op (s.withTurns ts) = some (r, t)) :
    step (s.withTurns (.host { target := .cell sp o, op := op } :: ts)) = .next (t.record r) :=
  (step_host (withTurns_turns s _)).trans (hostTurn_answered (a := { target := .cell sp o, op := op }) h)

theorem step_writeReg (s : State) (r : Reg) (v : Word) (ts : List Turn) :
    step (s.withTurns (.host (writeRegAccess r v) :: ts)) = .next (((s.withTurns ts).writeReg r v).record .written) :=
  step_cell (by rw [accessAt_write_reg, regWrite_offset, Option.map_some])

/-- A write of IN_LEN in phase IDLE. -/
theorem step_writeInLen {s : State} (v : Word) (ts : List Turn) (hidle : s.busy = false) :
    step (s.withTurns (.host (writeRegAccess .inLen v) :: ts)) =
      .next (State.record { s.withTurns ts with inLen := v } .written) := by
  rw [← writeInLen_of_idle (s.withTurns ts) v hidle]
  exact step_writeReg s .inLen v ts

/-- The block with other bytes in IN, turns to come and replies given. -/
def State.withIn (s : State) (m : Memory) (ts : List Turn) (rs : List Reply) : State :=
  { s with inBuf := m, turns := ts, replies := rs }

/-- A write of a byte of IN in phase IDLE takes its turn, and its reply joins the others. -/
theorem step_writeIn {s : State} {i : Nat} (b : Byte) (ts : List Turn) (hidle : s.busy = false)
    (hi : i < s.params.inCap.toNat) :
    step (s.withTurns (.host { target := .cell .input i, op := .write8 b } :: ts)) =
      .next (s.withIn (s.inBuf.write i b) ts (.written :: s.replies)) := by
  have ha : accessAt .input i (.write8 b) (s.withTurns ts) = some (.written, s.withIn (s.inBuf.write i b) ts s.replies) := by
    rw [accessAt_write_input, inWrite_of_idle (s := s.withTurns ts) hi hidle]
    rfl
  exact step_cell ha

/-- `wrin` in phase IDLE, whatever turns come after. -/
theorem run_writeInAccesses {s : State} {i : Nat} {x : List Byte} (ts : List Turn) (hidle : s.busy = false)
    (hfits : i + x.length ≤ s.params.inCap.toNat) :
    ∃ rs, Sys2Proof.core.run x.length (s.withTurns ((writeInAccesses i x).map Turn.host ++ ts)) =
      .next (s.withIn (s.inBuf.writeFrom i x) ts rs) := by
  induction x generalizing s i with
  | nil => exact ⟨s.replies, rfl⟩
  | cons b bs ih =>
    rw [List.length_cons] at hfits
    have hstep := step_writeIn (i := i) b ((writeInAccesses (i + 1) bs).map Turn.host ++ ts) hidle (by omega)
    obtain ⟨rs, hrun⟩ := ih (s := s.withIn (s.inBuf.write i b) s.turns (.written :: s.replies)) (i := i + 1) hidle
      (show i + 1 + bs.length ≤ s.params.inCap.toNat by omega)
    exact ⟨rs, (run_succ_of_step hstep bs.length).trans hrun⟩

/-! ## The started command (rules R110 and R344) -/

/-- The block with the input `x` written into IN and its length into IN_LEN, and no turn to come. -/
def State.loaded (s : State) (x : List Byte) (rs : List Reply) : State :=
  { s.withIn (s.inBuf.writeFrom 0 x) [] rs with inLen := BitVec.ofNat 32 x.length }

theorem loaded_inLen {s : State} {x : List Byte} (rs : List Reply) (hfits : x.length ≤ s.params.inCap.toNat) :
    (s.loaded x rs).inLen.toNat = x.length :=
  (BitVec.toNat_ofNat ..).trans (Nat.mod_eq_of_lt (lt_of_le_of_lt hfits s.params.inCap.isLt))

theorem loaded_input {s : State} {x : List Byte} (rs : List Reply) (hwf : s.inBuf.wf = true)
    (hfits : x.length ≤ s.params.inCap.toNat) : (s.loaded x rs).input = x := by
  rw [State.input, loaded_inLen rs hfits]
  exact Memory.bytes_writeFrom 0 x hwf

/-- In `c` the block `s` has just accepted the command word `w` on the input `x`, and no turn is to come. -/
structure StartedOn (s : State) (w : Word) (x : List Byte) (c : State) : Prop where
  busy : c.busy = true
  noTurns : c.turns = []
  cmd : c.cmd = w
  params : c.params = s.params
  inLen : c.inLen.toNat = x.length
  input : c.input = x

/-- A CMD write starts its command on the bytes written to IN when IN_LEN is their number. -/
theorem startedOn_startCommand {s : State} {x : List Byte} (w : Word) (rs : List Reply) (hidle : s.busy = false)
    (hwf : s.inBuf.wf = true) (hfits : x.length ≤ s.params.inCap.toNat) :
    StartedOn s w x ((s.loaded x rs).startCommand w) where
  busy := startCommand_busy _ w
  noTurns := startCommand_turns _ w
  cmd := by rw [startCommand_of_idle (s.loaded x rs) w hidle]
  params := startCommand_params _ w
  inLen := (congrArg BitVec.toNat (startCommand_inLen _ w)).trans (loaded_inLen rs hfits)
  input := (input_congr (startCommand_inLen _ w) fun _ _ => by rw [startCommand_inBuf]).trans (loaded_input rs hwf hfits)

/-- A reply changes nothing that a command runs on. -/
theorem StartedOn.record {s c : State} {w : Word} {x : List Byte} (h : StartedOn s w x c) (r : Reply) :
    StartedOn s w x (c.record r) := { h with }

/-- The writes of rule R344, one step each: the bytes, IN_LEN, CMD. -/
theorem run_hostOrder {s : State} {x : List Byte} (w : Word) (hidle : s.busy = false) (hwf : s.inBuf.wf = true)
    (hfits : x.length ≤ s.params.inCap.toNat) :
    ∃ c, Sys2Proof.core.run (x.length + 2) (s.withTurns ((writeInAccesses 0 x ++
        [writeRegAccess .inLen (BitVec.ofNat 32 x.length), writeRegAccess .cmd w]).map Turn.host)) = .next c ∧
      StartedOn s w x c := by
  rw [List.map_append]
  obtain ⟨rs, hbytes⟩ := run_writeInAccesses (i := 0) (x := x)
    ([writeRegAccess .inLen (BitVec.ofNat 32 x.length), writeRegAccess .cmd w].map Turn.host) hidle (by omega)
  have hinLen := step_writeInLen (s := s.withIn (s.inBuf.writeFrom 0 x) [] rs) (BitVec.ofNat 32 x.length)
    [.host (writeRegAccess .cmd w)] hidle
  have hcmd := step_writeReg (s.loaded x (.written :: rs)) .cmd w []
  refine ⟨_, ?_, (startedOn_startCommand w (.written :: rs) hidle hwf hfits).record .written⟩
  exact (coreRun_add hbytes 2).trans ((run_succ_of_step hinLen 1).trans (run_succ_of_step hcmd 0))

/-! ## The command step (rules R111 and R112) -/

/-- Whatever the outcome, the command step leaves the frame of rule R112. -/
theorem ShowsOutcome.frame {s t : State} {r : Result} (h : ShowsOutcome s t r) : CommandFrame s t := by
  cases r with
  | ok y =>
    obtain ⟨-, -, -, -, hframe⟩ := h
    exact hframe
  | err e =>
    obtain ⟨-, -, -, hframe⟩ := h
    exact hframe

/-- DONE, with or without ERR, excludes BUSY. -/
theorem ShowsOutcome.idle {s t : State} {r : Result} (h : ShowsOutcome s t r) : t.busy = false := by
  cases r with
  | ok y =>
    obtain ⟨hstatus, -⟩ := h
    rw [State.busy, hstatus]
    rfl
  | err e =>
    obtain ⟨hstatus, -⟩ := h
    rw [State.busy, hstatus]
    rfl

/-- The step after the host's writes shows the command's function on the bytes written. -/
theorem StartedOn.step_shows {s c : State} {i : Instr} {x : List Byte} (h : StartedOn s (encode i) x c)
    (hfits : x.length ≤ s.params.inCap.toNat) :
    ∃ t, step c = .next t ∧
      ShowsOutcome c t ((codecByOp s.params i.op.toNat x).thenRun (Result.capped (outRoom s))) := by
  have hinput : InputFits c := by rwa [InputFits, h.inLen, h.params]
  obtain ⟨t, hexec, hshows⟩ := exec_shows (i := i) hinput
  rw [h.params, h.input, outRoom, h.params] at hshows
  have hstep : step c = exec i c := (step_no_turns h.noTurns h.busy).trans (engineStep_of_ok (decode_eq_ok.mpr h.cmd))
  exact ⟨t, hstep.trans hexec, hshows⟩

/-- Settles O60: the writes start the command on the bytes written, and its step shows the outcome, error by error. -/
theorem hostOrderRunsOneCommand : Obligations.HostOrderRunsOneCommand := by
  intro s i x hidle hwf hfits
  obtain ⟨c, hwrites, hstarted⟩ := run_hostOrder (encode i) hidle hwf hfits
  obtain ⟨t, hstep, hshows⟩ := hstarted.step_shows hfits
  obtain ⟨hcmd, hinLen, hin, -⟩ := hshows.frame
  refine ⟨t, (coreRun_add hwrites 1).trans (run_succ_of_step hstep 0), hshows.idle, hcmd.trans hstarted.cmd, ?inLen, ?input,
    fun e he => ?error, fun y hy => ⟨fun hroom => ?delivered, fun hroom => ?overflow⟩⟩
  case inLen => rw [hinLen, hstarted.inLen]
  case input => rw [input_congr hinLen fun k _ => hin k, hstarted.input]
  case error =>
    rw [he, thenRun_err] at hshows
    obtain ⟨hstatus, houtLen, herrCause, -⟩ := hshows
    exact ⟨hstatus, houtLen, herrCause⟩
  case delivered =>
    rw [hy, thenRun_ok, Result.capped, if_neg (Nat.not_lt.mpr hroom)] at hshows
    obtain ⟨hstatus, houtLen, herrCause, hresult, -⟩ := hshows
    exact ⟨hstatus, herrCause, hresult, houtLen⟩
  case overflow =>
    rw [hy, thenRun_ok, Result.capped, if_pos hroom] at hshows
    obtain ⟨hstatus, houtLen, herrCause, -⟩ := hshows
    exact ⟨hstatus, houtLen, herrCause⟩

end Sys2Proof.Machine
end
